-- ==== Sys2Proof/Word.lean ====
section
/-! DEFINITION. The machine's words: a command word or register is 32 bits, a byte 8 bits (R11). -/

namespace Sys2Proof

/-- A 32-bit word (R11): a command word or a host register. -/
abbrev Word := BitVec 32

/-- An 8-bit byte (R11): a framebuffer byte or a byte on the wire. -/
abbrev Byte := BitVec 8

/-- A byte offset in the 2048-byte host register space, 0x000 to 0x7FF (R37, R54). -/
abbrev Offset := BitVec 11

end Sys2Proof
end

