-- ==== Sys2Proof/Config.lean ====
section
/-! DEFINITION. The parameters the spec leaves open (R10, R41): fixed for a run, without a value any proof can see. -/

namespace Sys2Proof

/-- `INIT_OPS` with `OP_CHARGE_PUMP`: the opcode bytes of the 15 init commands, in the order of R132 and R133. -/
structure InitOps where
  displayOff   : Byte
  startLine0   : Byte
  segRemapOn   : Byte
  mux          : Byte
  comScanRemap : Byte
  displayOffset : Byte
  comPins      : Byte
  clockDiv     : Byte
  precharge    : Byte
  vcomDeselect : Byte
  contrast     : Byte
  entireOnRam  : Byte
  normalDisplay : Byte
  chargePump   : Byte
  displayOn    : Byte
  deriving DecidableEq, Repr, Inhabited

/-- The default opcode bytes of R133 around a charge-pump byte `cp`, which has no default.
PRESUMED: the spec marks each one as general knowledge, not from its source (K1); no definition of the machine
uses them, so they are safe (notes/assumptions/10.md). -/
def InitOps.defaults (cp : Byte) : InitOps where
  displayOff := 0xAE#8
  startLine0 := 0x40#8
  segRemapOn := 0xA1#8
  mux := 0xA8#8
  comScanRemap := 0xC8#8
  displayOffset := 0xD3#8
  comPins := 0xDA#8
  clockDiv := 0xD5#8
  precharge := 0xD9#8
  vcomDeselect := 0xDB#8
  contrast := 0x81#8
  entireOnRam := 0xA4#8
  normalDisplay := 0xA6#8
  chargePump := cp
  displayOn := 0xAF#8

/-- The init opcode bytes of this machine: a free value, so every claim is parametric in them (R10, R133, D18).
DESIGN CHOICE of the form, safe (notes/assumptions/10.md). -/
opaque Config.initOps : InitOps

/-- `FBP_BASE`, the Host address of FBP's register space: a free value of the platform (R10, R54, D30).
DESIGN CHOICE, safe (notes/assumptions/11.md). -/
opaque Config.fbpBase : Nat

end Sys2Proof
end

