-- ==== Sys2Proof/Syntax.lean ====
section
/-! DEFINITION. The five commands, one constructor per row of spec/opcode_table.json (R84). -/

namespace Sys2Proof

/-- A command with its operands. The operand widths are those of the formats of R82, so every term is encodable;
out-of-range coordinates and lengths are terms too, as R83 wants them. -/
inductive Instr where
  /-- `SET_PIXEL x, y, on`, Format P (R102); `val` is the field `ON`. -/
  | setPixel (x y : BitVec 8) (val : Bool)
  /-- `DRAW_GLYPH x, y`, Format G (R106). -/
  | drawGlyph (x y : BitVec 8)
  /-- `CLEAR`, Format N (R111). -/
  | clear
  /-- `INIT`, Format N (R136). -/
  | init
  /-- `RENDER len`, Format L (R141). -/
  | render (len : BitVec 16)
  deriving DecidableEq, Repr

/-- The mnemonic of a command as spec/opcode_table.json spells it. -/
def Instr.mnemonic : Instr → String
  | .setPixel _ _ _ => "SET_PIXEL"
  | .drawGlyph _ _ => "DRAW_GLYPH"
  | .clear => "CLEAR"
  | .init => "INIT"
  | .render _ => "RENDER"

end Sys2Proof
end

