-- ==== Sys2Proof/WellFormed.lean ====
section
/-! DEFINITION. Which command words are well formed, said through the opcode map's match and mask (R84), independently of
the decoder. Every term of `Instr` is well formed by its field types; what can be ill formed is a word: its opcode may be
unassigned (R86) or a reserved bit of its format may be 1 (R85). -/

namespace Sys2Proof

/-- One row of the opcode map (R84, spec/opcode_table.json). -/
structure OpcodeRow where
  mnemonic : String
  pattern : Word
  mask : Word
  deriving DecidableEq, Repr

/-- `v & mask = match` (R84). -/
def OpcodeRow.selects (r : OpcodeRow) (v : Word) : Bool := v &&& r.mask == r.pattern

def rowSetPixel : OpcodeRow := ⟨"SET_PIXEL", 0x10000000#32, 0xFFFE0000#32⟩
def rowDrawGlyph : OpcodeRow := ⟨"DRAW_GLYPH", 0x20000000#32, 0xFFFF0000#32⟩
def rowClear : OpcodeRow := ⟨"CLEAR", 0x30000000#32, 0xFFFFFFFF#32⟩
def rowInit : OpcodeRow := ⟨"INIT", 0x40000000#32, 0xFFFFFFFF#32⟩
def rowRender : OpcodeRow := ⟨"RENDER", 0x50000000#32, 0xFFFF0000#32⟩

/-- The opcode map of R84, the illegal opcodes left out. -/
def opcodeTable : List OpcodeRow := [rowSetPixel, rowDrawGlyph, rowClear, rowInit, rowRender]

/-- The opcode-map row a command belongs to. -/
def Instr.row : Instr → OpcodeRow
  | .setPixel _ _ _ => rowSetPixel
  | .drawGlyph _ _ => rowDrawGlyph
  | .clear => rowClear
  | .init => rowInit
  | .render _ => rowRender

/-- A command word is well formed when some row of the opcode map selects it (R84, R85, R86). -/
def wordWellFormed (v : Word) : Bool := opcodeTable.any (·.selects v)

end Sys2Proof
end

