-- ==== Sys2Proof/Decode.lean ====
section
/-! DEFINITION. The decoder of command words (R81, R82, R83), total on all 2^32 words and rejecting by name, and the encoder. -/

namespace Sys2Proof

/-- Why a word is no command; both raise `ERR_ILLEGAL_CMD` (R85, R86). -/
inductive Illegal where
  /-- `OP` is 0x0 or 0x6 to 0xF (R86). -/
  | opcode
  /-- `OP` is legal and a reserved bit of its format is 1 (R85). -/
  | reservedBits
  deriving DecidableEq, Repr

/-- `OP` = v[31:28] (R80). -/
def opField (v : Word) : BitVec 4 := v.extractLsb' 28 4
/-- `X` = v[7:0] (R82, R83). -/
def xField (v : Word) : BitVec 8 := v.extractLsb' 0 8
/-- `Y` = v[15:8] (R82, R83). -/
def yField (v : Word) : BitVec 8 := v.extractLsb' 8 8
/-- `ON` = v[16] (R82, R83). -/
def onField (v : Word) : Bool := v.getLsbD 16
/-- `LEN` = v[15:0] (R82, R83). -/
def lenField (v : Word) : BitVec 16 := v.extractLsb' 0 16
/-- The reserved bits [27:17] of Format P (R82). -/
def reservedP (v : Word) : BitVec 11 := v.extractLsb' 17 11
/-- The reserved bits [27:16] of Formats G and L (R82). -/
def reservedGL (v : Word) : BitVec 12 := v.extractLsb' 16 12
/-- The reserved bits [27:0] of Format N (R82). -/
def reservedN (v : Word) : BitVec 28 := v.extractLsb' 0 28

/-- `i` where the format's reserved bits are 0, and the rejection of R85 where they are not. -/
def ifClear {n : Nat} (reserved : BitVec n) (i : Instr) : Except Illegal Instr :=
  if reserved = 0#n then .ok i else .error .reservedBits

/-- The `case` of R81. -/
def decode (v : Word) : Except Illegal Instr :=
  if opField v = 0x1#4 then ifClear (reservedP v) (.setPixel (xField v) (yField v) (onField v))
  else if opField v = 0x2#4 then ifClear (reservedGL v) (.drawGlyph (xField v) (yField v))
  else if opField v = 0x3#4 then ifClear (reservedN v) .clear
  else if opField v = 0x4#4 then ifClear (reservedN v) .init
  else if opField v = 0x5#4 then ifClear (reservedGL v) (.render (lenField v))
  else .error .opcode

/-- The command word of a command: `OP` in [31:28], each operand at its place, every reserved bit 0 (R82, R84). -/
def encode : Instr → Word
  | .setPixel x y val =>
    0x10000000#32 ||| ((BitVec.ofBool val).setWidth 32 <<< 16) ||| (y.setWidth 32 <<< 8) ||| x.setWidth 32
  | .drawGlyph x y => 0x20000000#32 ||| (y.setWidth 32 <<< 8) ||| x.setWidth 32
  | .clear => 0x30000000#32
  | .init => 0x40000000#32
  | .render len => 0x50000000#32 ||| len.setWidth 32

/-- What the decoder reads from a table row's bits: the command word arrives whole (R53, R80), so the number is the word. -/
def decodeTableWord (nbits w : Nat) : Option Instr :=
  if nbits ≤ 32 ∧ w < 2 ^ 32 then
    match decode (BitVec.ofNat 32 w) with
    | .ok i => some i
    | .error _ => none
  else none

end Sys2Proof
end

