-- ==== Sys2Proof/Machine/State.lean ====
section
/-! DEFINITION. The state of FBP and of the agents around it as plain data, its value at reset, and the reasons a step can stop. -/

namespace Sys2Proof.Machine

/-- Bytes by address (Host.Cell), held as a list in one canonical form: addresses strictly rising, and no byte equal to
`Memory.unlisted`. `Machine/Memory.lean` has the operations. -/
abbrev Memory := List Host.Cell

/-- What an address with no entry reads as, in both memories: for DEF, no bit written since reset (R24, R39); for FB, value
bits that DEF marks as not written, which no read returns (R25). DESIGN CHOICE for the FB half, safe (notes/assumptions/3.md). -/
def Memory.unlisted : Byte := 0#8

/-- The sequencer position `seq` (R30). -/
inductive Seq where
  /-- No command in progress. -/
  | idle
  /-- `INIT` is about to send init transfer `k`. -/
  | init (k : Fin 22)
  /-- `RENDER` is about to send transfer `j` of page `p`: 0 page address, 1 lower column, 2 higher column, 3 data. -/
  | render (p : Fin 8) (j : Fin 4)
  deriving DecidableEq, Repr

/-- One completed transfer: the 7-bit peripheral address and the bytes, in transmission order (R12, R40, R60). -/
structure Transfer where
  addr : BitVec 7
  bytes : List Byte
  deriving DecidableEq, Repr

/-- A Host access at a byte offset of the host register space, `n` bytes wide (R14, R55). -/
inductive Access where
  /-- `MemRead(a, n)`. -/
  | read (a : Offset) (n : Nat)
  /-- `MemWrite(a, n, v)`. A write narrower than a word is admitted at `FBWIN` only, where `v` has no effect (R56):
  DESIGN CHOICE, safe (notes/assumptions/19.md). -/
  | write (a : Offset) (n : Nat) (v : Word)
  deriving DecidableEq, Repr

/-- One move of an agent outside the Block (R7, R200). DESIGN CHOICE, safe (notes/assumptions/1.md): the moves stand in
`State.inputs` in the order they happen. -/
inductive Input where
  /-- The Host makes an access (R55). -/
  | host (acc : Access)
  /-- The Transport accepts the transfer the Block is about to send (R60). -/
  | accept
  /-- The platform applies FBP's reset (R200). -/
  | reset
  deriving DecidableEq, Repr

/-- The whole state. -/
structure State where
  /-- FB, by flat index (R20, R21, R22). -/
  fb : Memory
  /-- DEF, by flat index, bit `b` of a byte being `DEF[i][b]` (R24). -/
  defd : Memory
  /-- STATUS (R27). -/
  status : Word
  /-- ERR_CMD (R28). -/
  errCmd : Word
  /-- GLYPH_LO (R29). -/
  glyphLo : Word
  /-- GLYPH_HI (R29). -/
  glyphHi : Word
  /-- The sequencer position (R30). -/
  seq : Seq
  /-- TRACE, the transfers completed so far, oldest first (R40). -/
  trace : List Transfer
  /-- The MODEL's own field: the outside agents' coming moves, in the order they happen (R7). DESIGN CHOICE, safe
  (notes/assumptions/1.md). -/
  inputs : List Input
  /-- The MODEL's own field: the values the Host's reads have returned, oldest first (R57, R59).
  DESIGN CHOICE, safe (notes/assumptions/2.md). -/
  hostReads : List Word
  deriving DecidableEq, Repr

/-- Why the machine stops with a fault. -/
inductive Fault where
  /-- `F_UNINIT(i)` (R25): a read of framebuffer byte `i`, one of whose bits was never written since reset. Raised by a Host
  read of `FBWIN` (R57) and by `RENDER` before its first transfer (R143). Safe: the hardware goes on with bits nobody knows.
  DEDUCED (notes/assumptions/4.md). -/
  | uninit (i : Nat)
  /-- The Host is stuck on an access R55 does not admit, at offset `a` with width `n` (R58, R177). Raised by the host port.
  Safe: the spec gives such an access no step. DESIGN CHOICE: the stuck Host is a named fault (notes/assumptions/5.md). -/
  | notAdmitted (a : Offset) (n : Nat)
  deriving DecidableEq, Repr

/-- Why an instruction is refused. -/
inductive Refusal where
  /-- The instruction has no meaning in the model. Raised by an arm of `exec` only, and no arm raises it: every command has
  its meaning. Safe. -/
  | notModelled (mnemonic : String)
  deriving DecidableEq, Repr

/-- What a step, or a part of one, answers. -/
abbrev Outcome := Host.Outcome State Fault Refusal

/-- The machine right after reset (R39): FB unspecified (every DEF bit 0), every register 0, `seq` IDLE, TRACE empty, and
nothing placed for the Host to do (R201). -/
def State.reset : State where
  fb := []
  defd := []
  status := 0x00000000#32
  errCmd := 0x00000000#32
  glyphLo := 0x00000000#32
  glyphHi := 0x00000000#32
  seq := .idle
  trace := []
  inputs := []
  hostReads := []

end Sys2Proof.Machine
end

