-- ==== Sys2Proof/Machine/Flags.lean ====
section
/-! DEFINITION. STATUS and its fields (R27, R35), and the error codes (R170). FBP has no condition codes (R35). -/

namespace Sys2Proof.Machine

/-- The error codes a command can raise (R170). Code 3, ERR_TRANSPORT, is reserved and never raised (R176), so it is no term. -/
inductive ErrCode where
  | geometry
  | size
  | notInit
  | illegalCmd
  deriving DecidableEq, Repr

/-- The value of STATUS.ERR_CODE (R170). -/
def ErrCode.code : ErrCode → BitVec 4
  | .geometry => 1#4
  | .size => 2#4
  | .notInit => 4#4
  | .illegalCmd => 5#4

/-- STATUS.INIT_DONE = STATUS[0] (R27). -/
def statusInitDone (st : Word) : Bool := st.getLsbD 0
/-- STATUS.FAULT = STATUS[1] (R27). -/
def statusFault (st : Word) : Bool := st.getLsbD 1
/-- STATUS.ERR_CODE = STATUS[7:4] (R27). -/
def statusErrCode (st : Word) : BitVec 4 := st.extractLsb' 4 4

/-- STATUS with INIT_DONE set (R137). -/
def statusSetInitDone (st : Word) : Word := st ||| 0x00000001#32

/-- STATUS with FAULT set and ERR_CODE = `c` (R172). -/
def statusRaise (st : Word) (c : BitVec 4) : Word :=
  (st &&& 0xFFFFFF0D#32) ||| 0x00000002#32 ||| (c.setWidth 32 <<< 4)

end Sys2Proof.Machine
end

