-- ==== Sys2Proof/Machine/Memory.lean ====
section
/-! DEFINITION. The operations over a memory, one byte at a time, and its canonical form. -/

namespace Sys2Proof.Machine

/-- The byte at address `a`. -/
def Memory.read : Memory → Nat → Byte
  | [], _ => Memory.unlisted
  | (k, b) :: rest, a => if k = a then b else Memory.read rest a

/-- `m` without an entry for address `a`. -/
def Memory.erase (m : Memory) (a : Nat) : Memory := m.filter (fun c => c.1 != a)

/-- `m` with an entry for `a` put before the first greater address. -/
def Memory.insert : Memory → Nat → Byte → Memory
  | [], a, v => [(a, v)]
  | (k, b) :: rest, a, v => if a < k then (a, v) :: (k, b) :: rest else (k, b) :: Memory.insert rest a v

/-- `m` with byte `v` at address `a`, in canonical form: writing the unlisted value removes the entry. -/
def Memory.write (m : Memory) (a : Nat) (v : Byte) : Memory :=
  if v = Memory.unlisted then m.erase a else (m.erase a).insert a v

/-- The memory whose addresses below `n` all hold `v`. -/
def Memory.fill (n : Nat) (v : Byte) : Memory :=
  if v = Memory.unlisted then [] else (List.range n).map (fun i => (i, v))

/-- The canonical form: addresses strictly rising, no entry equal to what an unlisted address reads as. -/
def Memory.wf : Memory → Bool
  | [] => true
  | (k, b) :: rest => b != Memory.unlisted && rest.all (fun c => decide (k < c.1)) && Memory.wf rest

/-- Every entry lies in an address space of `n` bytes. -/
def Memory.below (n : Nat) (m : Memory) : Bool := m.all (fun c => decide (c.1 < n))

end Sys2Proof.Machine
end

