-- ==== Sys2Proof/Machine/Params.lean ====
section
/-! DEFINITION. The fixed geometry and protocol parameters (R8, R9), constants of this hardware. UNVERIFIED, unsafe: the spec
says the literals were not audited against a part (R10; notes/assumptions/18.md). -/

namespace Sys2Proof.Machine

/-- `W` (R8). -/
@[simp] def Geom.W : Nat := 128
/-- `H` (R8). -/
@[simp] def Geom.H : Nat := 64
/-- `PAGE_H` (R8). -/
@[simp] def Geom.pageH : Nat := 8
/-- `NUM_PAGES` (R8). -/
@[simp] def Geom.numPages : Nat := 8
/-- `FB_BYTES` (R8). -/
@[simp] def Geom.fbBytes : Nat := 1024
/-- `GLYPH_BYTES` (R8). -/
@[simp] def Geom.glyphBytes : Nat := 8

/-- `BUS_ADDR` (R9, R61). -/
def Bus.addr : BitVec 7 := 0x3C#7
/-- `COL_OFFSET` (R9). -/
def Bus.colOffset : Byte := 2#8
/-- `CMD_MARKER` (R9, R87). -/
def Bus.cmdMarker : Byte := 0x80#8
/-- `DATA_MARKER` (R9, R87). -/
def Bus.dataMarker : Byte := 0x40#8
/-- `PAGE_CMD_BASE` (R9, R88). -/
def Bus.pageCmdBase : Byte := 0xB0#8
/-- `COL_LO_BASE` (R9, R88). -/
def Bus.colLoBase : Byte := 0x00#8
/-- `COL_HI_BASE` (R9, R88). -/
def Bus.colHiBase : Byte := 0x10#8

end Sys2Proof.Machine
end

