-- ==== Sys2Proof/Machine/Ops.lean ====
section
/-! DEFINITION. The named operations every command and the host port share: framebuffer reads and writes, `raise Error`,
reset, the issue check and the transfer primitive. -/

namespace Sys2Proof.Machine

/-! ### The framebuffer -/

/-- `FB[i]` as stored; where a `DEF` bit is 0 the value bit means nothing (R24). -/
def fbByte (s : State) (i : Nat) : Byte := s.fb.read i

/-- `DEF[i]`, bit `b` being `DEF[i][b]` (R24). -/
def defByte (s : State) (i : Nat) : Byte := s.defd.read i

/-- Every bit of `FB[i]` has been written since reset (R24, R25). -/
def byteDefined (s : State) (i : Nat) : Bool := defByte s i == 0xFF#8

/-- The lowest `i` in `lo .. lo + n` (exclusive) with an undefined bit: the read of those bytes faults there (R25, R57, R143). -/
def firstUndefined (s : State) (lo n : Nat) : Option Nat :=
  ((List.range n).map (lo + ·)).find? (fun i => !byteDefined s i)

/-- `writeBit(i, b, val)` (R101): the other seven bits of the byte and their DEF bits keep their values. -/
def writeBit (i b : Nat) (val : Bool) (s : State) : State :=
  { s with
    fb := s.fb.write i (if val then fbByte s i ||| (1#8 <<< b) else fbByte s i &&& ~~~(1#8 <<< b))
    defd := s.defd.write i (defByte s i ||| (1#8 <<< b)) }

/-- `writeByte(i, v)` (R101). -/
def writeByte (i : Nat) (v : Byte) (s : State) : State :=
  { s with fb := s.fb.write i v, defd := s.defd.write i 0xFF#8 }

/-- `writeByte` of each byte of the list, at `base`, `base + 1`, ... in order (the loop of R106). -/
def writeBytes : Nat → List Byte → State → State
  | _, [], s => s
  | base, v :: rest, s => writeBytes (base + 1) rest (writeByte base v s)

/-- Every framebuffer byte holds `v`, every DEF bit is 1: the loop of R111 over all 1024 bytes, in canonical form
(DEDUCED, safe: notes/assumptions/17.md). -/
def fillFramebuffer (v : Byte) (s : State) : State :=
  { s with fb := Memory.fill Geom.fbBytes v, defd := Memory.fill Geom.fbBytes 0xFF#8 }

/-! ### Errors and reset -/

/-- STATUS.INIT_DONE (R27). -/
def initDone (s : State) : Bool := statusInitDone s.status

/-- STATUS.FAULT (R27): the fault state (R173). -/
def faulted (s : State) : Bool := statusFault s.status

/-- `raise Error(code)` during the execution of word `v` (R172): the one way into the fault state. -/
def raiseError (c : ErrCode) (v : Word) (s : State) : State :=
  { s with status := statusRaise s.status c.code, errCmd := v, seq := .idle }

/-- FBP's reset, the one way out of the fault state and of a hung transfer (R180, R200): every piece of FBP's state at its
reset value. What the Transport accepted stays in TRACE (R200), and the outside agents keep their own state
(DEDUCED, safe: notes/assumptions/9.md; the Host then goes on, notes/assumptions/22.md). -/
def applyReset (s : State) : State :=
  { State.reset with trace := s.trace, inputs := s.inputs, hostReads := s.hostReads }

/-- The check every command begins with (R81, R173): in the fault state the `CMD` write completes with no effect. -/
def issue (s : State) (k : State → Outcome) : Outcome :=
  if faulted s then .next s else k s

/-! ### The Transport -/

/-- `Xfer(BUS_ADDR, bytes)` at the moment the Transport accepts it (R60, R61): nothing but TRACE changes. -/
def xfer (bytes : List Byte) (s : State) : State :=
  { s with trace := s.trace ++ [⟨Bus.addr, bytes⟩] }

/-- `sendCmd(c)` (R63, R130). -/
def sendCmd (c : Byte) (s : State) : State := xfer [Bus.cmdMarker, c] s

/-- `sendData(d)` (R63, R130). -/
def sendData (d : List Byte) (s : State) : State := xfer (Bus.dataMarker :: d) s

/-! ### Bytes and words -/

/-- The little-endian value of at most four bytes, the first in bits [7:0] (R51, R57). -/
def leWord : List Byte → Word
  | [] => 0#32
  | b :: rest => b.setWidth 32 ||| (leWord rest <<< 8)

/-- Byte `k` of a word in the little-endian view, bits [8k+7 : 8k] (R51). -/
def wordByte (w : Word) (k : Nat) : Byte := w.extractLsb' (8 * k) 8

end Sys2Proof.Machine
end

