-- ==== Sys2Proof/Machine/Operands.lean ====
section
/-! DEFINITION. The operands of the commands: pixel addressing, glyph origins, the staged glyph, page slices (R23, R29, R105, R107). -/

namespace Sys2Proof.Machine

/-- `byteIdx(x, y) = (y / 8) * 128 + x` (R23). -/
def byteIdx (x y : BitVec 8) : Nat := (y.toNat / Geom.pageH) * Geom.W + x.toNat

/-- `bitIdx(x, y) = y % 8` (R23). -/
def bitIdx (y : BitVec 8) : Nat := y.toNat % Geom.pageH

/-- The pixel exists: `x < 128` and `y < 64` (R102). -/
def pixelLegal (x y : BitVec 8) : Bool := decide (x.toNat < Geom.W ∧ y.toNat < Geom.H)

/-- The glyph origin is page-aligned and the glyph ends in its page, `x + 8` computed without wrap (R106, R107). -/
def originLegal (x y : BitVec 8) : Bool :=
  decide (y.toNat % Geom.pageH = 0 ∧ y.toNat < Geom.H ∧ x.toNat + Geom.glyphBytes ≤ Geom.W)

/-- `G[k]` for `k` in 0 .. 7 (R29). -/
def glyphByte (s : State) (k : Nat) : Byte :=
  if k < 4 then wordByte s.glyphLo k else wordByte s.glyphHi (k - 4)

/-- `G[0..7]`, the glyph operand (R29, R105). -/
def glyph (s : State) : List Byte := (List.range Geom.glyphBytes).map (glyphByte s)

/-- The bytes of page `p` in column order, `FB[p*128 .. p*128+128)` (R21, R50). -/
def pageBytes (s : State) (p : Nat) : List Byte :=
  (List.range Geom.W).map (fun x => fbByte s (p * Geom.W + x))

/-- The lowest index of the whole framebuffer with an undefined bit (R143). A fully defined DEF has one canonical form, so
comparing with it first saves a search over 1024 bytes and changes no answer (`frameUndefined_eq`). -/
def frameUndefined (s : State) : Option Nat :=
  if s.defd = Memory.fill Geom.fbBytes 0xFF#8 then none else firstUndefined s 0 Geom.fbBytes

end Sys2Proof.Machine
end

