-- ==== Sys2Proof/Machine/Controller.lean ====
section
/-! DEFINITION. The controller commands INIT and RENDER (41_controller.md). Executing one checks it and puts `seq` at its
first position; each acceptance by the Transport then completes one transfer and advances `seq` by one position
(R30, R34; DEDUCED, safe: notes/assumptions/7.md). -/

namespace Sys2Proof.Machine

/-- `INIT_SEQ`, the 22-byte init stream built from the opcode bytes (R134). -/
def initSeq (ops : InitOps) : Vector Byte 22 :=
  #v[ops.displayOff, ops.startLine0, ops.segRemapOn, ops.mux, 0x3F#8, ops.comScanRemap, ops.displayOffset, 0x00#8,
     ops.comPins, 0x12#8, ops.clockDiv, 0x80#8, ops.precharge, 0xF1#8, ops.vcomDeselect, 0x35#8,
     ops.contrast, 0xFF#8, ops.entireOnRam, ops.normalDisplay, ops.chargePump, ops.displayOn]

/-- Set page address: `0xB0 | p` (R88). -/
def pageCmd (p : Fin 8) : Byte := Bus.pageCmdBase ||| BitVec.ofNat 8 p.val

/-- Set lower column address: `0x00 | (COL_OFFSET & 0x0F)` (R88, R89). -/
def colLoCmd : Byte := Bus.colLoBase ||| (Bus.colOffset &&& 0x0F#8)

/-- Set higher column address: `0x10 | ((COL_OFFSET >> 4) & 0x0F)` (R88, R89). -/
def colHiCmd : Byte := Bus.colHiBase ||| ((Bus.colOffset >>> 4) &&& 0x0F#8)

/-- `INIT` (R136): legal whether or not INIT_DONE is set; the 22 transfers follow from `seq` = INIT(0). -/
def execInit (s : State) : Outcome :=
  issue s fun s => .next { s with seq := .init 0 }

/-- `RENDER len` (R141): ERR_NOT_INIT, then ERR_SIZE, then the model fault F_UNINIT, each before any transfer (R142, R143,
R175); the 32 transfers follow from `seq` = RENDER(0, 0). -/
def execRender (len : BitVec 16) (s : State) : Outcome :=
  issue s fun s =>
    if !initDone s then .next (raiseError .notInit (encode (.render len)) s)
    else if len.toNat ≠ Geom.fbBytes then .next (raiseError .size (encode (.render len)) s)
    else match frameUndefined s with
      | some i => .fault (.uninit i)
      | none => .next { s with seq := .render 0 0 }

/-- The position after init transfer `k` (R136). -/
def initNext (k : Fin 22) : Seq := if h : k.val + 1 < 22 then .init ⟨k.val + 1, h⟩ else .idle

/-- The position after transfer `j` of page `p`: pages in increasing order, four transfers each (R144, R145). -/
def renderNext (p : Fin 8) (j : Fin 4) : Seq :=
  if h : j.val + 1 < 4 then .render p ⟨j.val + 1, h⟩
  else if h : p.val + 1 < 8 then .render ⟨p.val + 1, h⟩ 0
  else .idle

/-- Transfer `k` of INIT, and the position after it; the last one sets INIT_DONE (R136, R137). -/
def sendInit (k : Fin 22) (s : State) : State :=
  let s := sendCmd ((initSeq Config.initOps).get k) s
  { s with
    status := if k.val = 21 then statusSetInitDone s.status else s.status
    seq := initNext k }

/-- Transfer `j` of page `p` of RENDER (R144). The page is read from FB itself, which no command can change while RENDER runs
(R69, R215; DEDUCED, safe: notes/assumptions/12.md). -/
def sendPage (p : Fin 8) (j : Fin 4) (s : State) : State :=
  match j with
  | 0 => sendCmd (pageCmd p) s
  | 1 => sendCmd colLoCmd s
  | 2 => sendCmd colHiCmd s
  | 3 => sendData (pageBytes s p.val) s

/-- Transfer `j` of page `p` of RENDER, and the position after it (R141, R144). -/
def sendRender (p : Fin 8) (j : Fin 4) (s : State) : State :=
  { sendPage p j s with seq := renderNext p j }

/-- The Transport accepts the transfer the Block is about to send (R60, R62, R136, R141). With no command in progress there is
nothing to accept and nothing changes (DESIGN CHOICE, safe: notes/assumptions/13.md). -/
def acceptTransfer (s : State) : State :=
  match s.seq with
  | .idle => s
  | .init k => sendInit k s
  | .render p j => sendRender p j s

end Sys2Proof.Machine
end

