-- ==== Sys2Proof/Machine/Framebuffer.lean ====
section
/-! DEFINITION. The framebuffer commands SET_PIXEL, DRAW_GLYPH and CLEAR (40_framebuffer.md). -/

namespace Sys2Proof.Machine

/-- `SET_PIXEL x, y, on` (R102). `ERR_CMD` gets the command word, which the operands determine
(DEDUCED, safe: notes/assumptions/8.md). -/
def execSetPixel (x y : BitVec 8) (val : Bool) (s : State) : Outcome :=
  issue s fun s =>
    if pixelLegal x y then .next (writeBit (byteIdx x y) (bitIdx y) val s)
    else .next (raiseError .geometry (encode (.setPixel x y val)) s)

/-- `DRAW_GLYPH x, y` (R106): the staged glyph to 8 consecutive bytes of one page. -/
def execDrawGlyph (x y : BitVec 8) (s : State) : Outcome :=
  issue s fun s =>
    if originLegal x y then .next (writeBytes (byteIdx x y) (glyph s) s)
    else .next (raiseError .geometry (encode (.drawGlyph x y)) s)

/-- `CLEAR` (R111). -/
def execClear (s : State) : Outcome :=
  issue s fun s => .next (fillFramebuffer 0x00#8 s)

end Sys2Proof.Machine
end

