-- ==== Sys2Proof/Machine/Dispatch.lean ====
section
/-! DEFINITION. The dispatch of the five commands, one arm each. -/

namespace Sys2Proof.Machine

def exec (i : Instr) (s : State) : Host.Outcome State Fault Refusal :=
  match i with
  | .setPixel x y val => Sys2Proof.Machine.execSetPixel x y val s
  | .drawGlyph x y => Sys2Proof.Machine.execDrawGlyph x y s
  | .clear => Sys2Proof.Machine.execClear s
  | .init => Sys2Proof.Machine.execInit s
  | .render len => Sys2Proof.Machine.execRender len s

end Sys2Proof.Machine
end

