-- ==== Sys2Proof/Machine/HostPort.lean ====
section
/-! DEFINITION. The host register space: which accesses are admitted, register reads and writes, the framebuffer window, and
the execution of a command word (20_memory.md sections 1 and 2, R26, R81). -/

namespace Sys2Proof.Machine

/-- The host registers of R26. -/
inductive Reg where
  | cmd
  | status
  | errCmd
  | glyphLo
  | glyphHi
  | geom
  | buscfg
  deriving DecidableEq, Repr

/-- The register at a byte offset (R26); none at a reserved offset, at an offset inside a register, and in the window. -/
def regAt (a : Offset) : Option Reg :=
  if a = 0x000#11 then some .cmd
  else if a = 0x004#11 then some .status
  else if a = 0x008#11 then some .errCmd
  else if a = 0x00C#11 then some .glyphLo
  else if a = 0x010#11 then some .glyphHi
  else if a = 0x014#11 then some .geom
  else if a = 0x018#11 then some .buscfg
  else none

/-- The offset of `CMD` (R26). -/
def cmdOffset : Offset := 0x000#11

/-- The first offset of the framebuffer window (R26). -/
def winBase : Nat := 0x400

/-- The legal accesses of R55: registers one aligned word, the window naturally aligned 1, 2 or 4 bytes, nothing else (R58). -/
def admitted (a : Offset) (n : Nat) : Bool :=
  if a.toNat < 0x01C then decide (n = 4 ∧ a.toNat % 4 = 0)
  else if winBase ≤ a.toNat then decide ((n = 1 ∨ n = 2 ∨ n = 4) ∧ a.toNat % n = 0)
  else false

/-- What a register reads as (R26, R31, R32, R59). -/
def regRead (r : Reg) (s : State) : Word :=
  match r with
  | .cmd => 0x00000000#32
  | .status => s.status
  | .errCmd => s.errCmd
  | .glyphLo => s.glyphLo
  | .glyphHi => s.glyphHi
  | .geom => 0x08084080#32
  | .buscfg => 0x4080023C#32

/-- A Host read completes with value `v`; nothing else changes (R57, R59, R65). -/
def answerRead (v : Word) (s : State) : State := { s with hostReads := s.hostReads ++ [v] }

/-- `MemRead(0x400 + i, n)` (R57): F_UNINIT at the lowest byte with an undefined bit, else the bytes little-endian. -/
def windowRead (i n : Nat) (s : State) : Outcome :=
  match firstUndefined s i n with
  | some j => .fault (.uninit j)
  | none => .next (answerRead (leWord ((List.range n).map (fun k => fbByte s (i + k)))) s)

/-- `execute(v)` (R81): ignored in the fault state (R173), an illegal word raises ERR_ILLEGAL_CMD (R85, R86), any other runs
its command. The check of the fault state stands in each command's meaning as well, by the same operation `issue`
(DEDUCED, safe: notes/assumptions/16.md). -/
def execute (v : Word) (s : State) : Outcome :=
  match decode v with
  | .error _ => issue s fun s => .next (raiseError .illegalCmd v s)
  | .ok i => exec i s

/-- `MemWrite` to register `r` (R56): the read-only registers ignore it. -/
def regWrite (r : Reg) (v : Word) (s : State) : Outcome :=
  match r with
  | .cmd => execute v s
  | .glyphLo => .next { s with glyphLo := v }
  | .glyphHi => .next { s with glyphHi := v }
  | .status => .next s
  | .errCmd => .next s
  | .geom => .next s
  | .buscfg => .next s

/-- One Host access (R55 to R59): a not admitted one leaves the Host stuck (R177), and a window write has no effect (R56). -/
def hostAccess (acc : Access) (s : State) : Outcome :=
  match acc with
  | .read a n =>
    if admitted a n then
      match regAt a with
      | some r => .next (answerRead (regRead r s) s)
      | none => windowRead (a.toNat - winBase) n s
    else .fault (.notAdmitted a n)
  | .write a n v =>
    if admitted a n then
      match regAt a with
      | some r => regWrite r v s
      | none => .next s
    else .fault (.notAdmitted a n)

/-- The offset a Host address reaches: `FBP_BASE + a` reaches `a`, and any other address is not FBP's (R54, R66). -/
def hostOffset (addr : Nat) : Option Offset :=
  if Config.fbpBase ≤ addr ∧ addr < Config.fbpBase + 0x800 then some (BitVec.ofNat 11 (addr - Config.fbpBase)) else none

end Sys2Proof.Machine
end

