-- ==== Sys2Proof/Machine/Step.lean ====
section
/-! DEFINITION. One step: the next move of `State.inputs` happens (R7, R34, R67, R200). -/

namespace Sys2Proof.Machine

/-- The head of `inputs` moves. A reset lands in any state (R200); an acceptance completes the transfer the Block is about to
send (R60); a Host access is made with `seq` IDLE only, and while a command is outstanding the Host waits, for ever if
nothing else comes first (R67, R214: a hang leaves the state as it is). With no move left nothing happens (R201). DEDUCED, safe: notes/assumptions/6.md. -/
def step (s : State) : Host.Outcome State Fault Refusal :=
  match s.inputs with
  | [] => .next s
  | .reset :: rest => .next (applyReset { s with inputs := rest })
  | .accept :: rest => .next (acceptTransfer { s with inputs := rest })
  | .host acc :: rest => if s.seq = .idle then hostAccess acc { s with inputs := rest } else .next s

/-- `s` with the word `w` as the Host's very next `CMD` write, and the Block idle so that the Host may make it (R67, R80);
notes/assumptions/1.md says how a program comes to run. A command word always has 32 bits, whatever `nbits` is. -/
def State.withFetchWord (s : State) (_nbits w : Nat) : State :=
  { s with seq := .idle, inputs := .host (.write cmdOffset 4 (BitVec.ofNat 32 w)) :: s.inputs }

end Sys2Proof.Machine
end

