-- ==== Sys2Proof/Machine/Assembler.lean ====
section
/-! DEFINITION. The Host-program notation of R91 and R92, expanded to the Host accesses it stands for. -/

namespace Sys2Proof.Machine

/-- One line of a Host program (R91), the pseudo-instructions of R92 among them. -/
inductive AsmLine where
  | setPixel (x y : BitVec 8) (val : Bool)
  | drawGlyph (x y : BitVec 8)
  | clear
  | init
  | render (len : BitVec 16)
  | wr (r : Reg) (imm : Word)
  | rd (r : Reg)
  /-- `RDB i`, `RDH i`, `RDW i`: a read of `FBWIN` index `i`. -/
  | rdb (i : BitVec 10)
  | rdh (i : BitVec 10)
  | rdw (i : BitVec 10)
  | pixelOn (x y : BitVec 8)
  | pixelOff (x y : BitVec 8)
  /-- `RENDER` without an operand. -/
  | renderAll
  | loadGlyph (b0 b1 b2 b3 b4 b5 b6 b7 : Byte)
  | glyph (x y : BitVec 8) (b0 b1 b2 b3 b4 b5 b6 b7 : Byte)
  deriving DecidableEq, Repr

/-- The offset of a register (R26). -/
def regOffset : Reg → Offset
  | .cmd => cmdOffset
  | .status => 0x004#11
  | .errCmd => 0x008#11
  | .glyphLo => 0x00C#11
  | .glyphHi => 0x010#11
  | .geom => 0x014#11
  | .buscfg => 0x018#11

/-- `FBWIN` index `i` is offset 0x400 + i (R57). -/
def winOffset (i : BitVec 10) : Offset := 0x400#11 + i.setWidth 11

/-- The write of a command's word to `CMD`. -/
def cmdWrite (i : Instr) : Access := .write cmdOffset 4 (encode i)

/-- `LOAD_GLYPH`: both glyph registers, the first byte in the low bits of each (R29, R92). -/
def loadGlyphAccesses (b0 b1 b2 b3 b4 b5 b6 b7 : Byte) : List Access :=
  [.write (regOffset .glyphLo) 4 (leWord [b0, b1, b2, b3]), .write (regOffset .glyphHi) 4 (leWord [b4, b5, b6, b7])]

/-- The Host accesses of a line (R91, R92). -/
def AsmLine.expand : AsmLine → List Access
  | .setPixel x y val => [cmdWrite (.setPixel x y val)]
  | .drawGlyph x y => [cmdWrite (.drawGlyph x y)]
  | .clear => [cmdWrite .clear]
  | .init => [cmdWrite .init]
  | .render len => [cmdWrite (.render len)]
  | .wr r imm => [.write (regOffset r) 4 imm]
  | .rd r => [.read (regOffset r) 4]
  | .rdb i => [.read (winOffset i) 1]
  | .rdh i => [.read (winOffset i) 2]
  | .rdw i => [.read (winOffset i) 4]
  | .pixelOn x y => [cmdWrite (.setPixel x y true)]
  | .pixelOff x y => [cmdWrite (.setPixel x y false)]
  | .renderAll => [cmdWrite (.render 1024#16)]
  | .loadGlyph b0 b1 b2 b3 b4 b5 b6 b7 => loadGlyphAccesses b0 b1 b2 b3 b4 b5 b6 b7
  | .glyph x y b0 b1 b2 b3 b4 b5 b6 b7 => loadGlyphAccesses b0 b1 b2 b3 b4 b5 b6 b7 ++ [cmdWrite (.drawGlyph x y)]

/-- A Host program over a Transport that accepts every transfer (R203, R214): each access, then as many acceptances as the
longest command has transfers; an acceptance with nothing to accept changes nothing. -/
def program (lines : List AsmLine) : List Input :=
  (lines.flatMap AsmLine.expand).flatMap (fun acc => .host acc :: List.replicate 32 .accept)

end Sys2Proof.Machine
end

