-- ==== Sys2Proof/Machine/Observe.lean ====
section
/-! DEFINITION. Two observations, neither of them state: what a finished run leaves (R219) and the image the controller's RAM
gets from the transfers of TRACE (R150). -/

namespace Sys2Proof.Machine

/-! ### The result of a run -/

/-- A Host access is still to come. -/
def Input.isHost : Input → Bool
  | .host _ => true
  | .accept => false
  | .reset => false

/-- The run has ended: its last Host access has completed and `seq` is IDLE (R219). DESIGN CHOICE, unsafe: the `CMD` write of a
command that a reset ends counts as completed, so a run can have ended although a transfer of that command was never accepted;
R67 and R219 leave it open (notes/assumptions/22.md). -/
def ended (s : State) : Bool := decide (s.seq = .idle) && s.inputs.all (fun m => !m.isHost)

/-- The observable result of an ended run (R219). -/
structure Result where
  trace : List Transfer
  /-- Per framebuffer index: the value bits that are defined, and the DEF byte that says which those are. -/
  frame : List (Byte × Byte)
  status : Word
  errCmd : Word
  deriving DecidableEq, Repr

/-- The result tuple of R219, the framebuffer restricted to bits with DEF = 1. -/
def result (s : State) : Result where
  trace := s.trace
  frame := (List.range Geom.fbBytes).map (fun i => (fbByte s i &&& defByte s i, defByte s i))
  status := s.status
  errCmd := s.errCmd

/-! ### The controller's RAM -/

/-- The controller as R150 sees it: its page and column address and what data bytes have put into its RAM, newest first.
DESIGN CHOICE, unsafe: the spec states no RAM width, so the column has no bound (notes/assumptions/20.md). -/
structure Panel where
  page : Nat
  col : Nat
  ram : List ((Nat × Nat) × Byte)
  deriving DecidableEq, Repr

/-- The RAM byte at a page and column, if any data byte went there. -/
def Panel.at (p : Panel) (page col : Nat) : Option Byte :=
  (p.ram.find? (fun e => decide (e.1 = (page, col)))).map (·.2)

/-- A command byte, by its high nibble: 0xB sets the page, 0x0 and 0x1 set the lower and the higher nibble of the column (R88),
any other sets neither. DESIGN CHOICE, unsafe: every command byte is read so, the parameter bytes of the init stream among them
(0x00 and 0x12 set the column), because the spec does not say how the controller takes those (notes/assumptions/21.md). -/
def Panel.command (c : Byte) (p : Panel) : Panel :=
  let lo := (c.extractLsb' 0 4).toNat
  if c.extractLsb' 4 4 = 0xB#4 then { p with page := lo }
  else if c.extractLsb' 4 4 = 0x0#4 then { p with col := p.col / 16 * 16 + lo }
  else if c.extractLsb' 4 4 = 0x1#4 then { p with col := lo * 16 + p.col % 16 }
  else p

/-- Data bytes, each at the column address, which then advances by one. PRESUMED, unsafe: the advance is general knowledge,
not in the spec's source (R150, K5; notes/assumptions/14.md). DESIGN CHOICE, unsafe: the column neither wraps nor stops at a last
RAM column, and the page never changes at a page's end, all of which the spec leaves open (notes/assumptions/20.md). No definition
of the machine uses it. -/
def Panel.data : List Byte → Panel → Panel
  | [], p => p
  | b :: rest, p => Panel.data rest { p with col := p.col + 1, ram := ((p.page, p.col), b) :: p.ram }

/-- One transfer: its first byte is the marker (R63, R87). One of no shape of R63, which FBP never makes, changes nothing
(DESIGN CHOICE, safe: notes/assumptions/21.md). -/
def Panel.transfer (p : Panel) (t : Transfer) : Panel :=
  match t.bytes with
  | [] => p
  | m :: d =>
    if m = Bus.cmdMarker then
      match d with
      | [c] => Panel.command c p
      | _ => p
    else if m = Bus.dataMarker then Panel.data d p
    else p

/-- The controller after a list of transfers, from any state `p` of it. -/
def controllerImage (p : Panel) (ts : List Transfer) : Panel := ts.foldl Panel.transfer p

end Sys2Proof.Machine
end

