-- ==== Sys2Proof/Safety.lean ====
section
/-! DEFINITION. What claims are stated in: the legal states (what reset establishes and every step keeps), runs, and the
transfers a command makes. -/

namespace Sys2Proof.Machine

/-! ### Legal states -/

/-- STATUS holds a legal value (R27): reserved bits 0, ERR_CODE one of 0, 1, 2, 4, 5, and FAULT = 0 if and only if ERR_CODE = 0. -/
def statusLegal (st : Word) : Prop :=
  st &&& 0xFFFFFF0C#32 = 0#32 ∧
  (statusErrCode st = 0#4 ∨ statusErrCode st = 1#4 ∨ statusErrCode st = 2#4 ∨ statusErrCode st = 4#4 ∨ statusErrCode st = 5#4) ∧
  (statusFault st = false ↔ statusErrCode st = 0#4)

/-- FB and DEF are in canonical form and lie in the 1024-byte index space (R21, R37). -/
def memoryLegal (s : State) : Prop :=
  s.fb.wf = true ∧ s.defd.wf = true ∧ s.fb.below Geom.fbBytes = true ∧ s.defd.below Geom.fbBytes = true

/-- A framebuffer bit that was never written holds no value: it is stored as 0 (R24; notes/assumptions/3.md). -/
def undefinedBitsEmpty (s : State) : Prop := ∀ i, fbByte s i &&& ~~~(defByte s i) = 0#8

/-- Every framebuffer bit has been written since reset (R24). -/
def allDefined (s : State) : Prop := ∀ i, i < Geom.fbBytes → byteDefined s i = true

/-- A command in progress started without an error, and a RENDER in progress found INIT_DONE set and every bit defined (R81,
R141, R142, R143). -/
def commandLegal (s : State) : Prop :=
  match s.seq with
  | .idle => True
  | .init _ => faulted s = false
  | .render _ _ => faulted s = false ∧ initDone s = true ∧ allDefined s

/-- A transfer has one of the two shapes of R63 and goes to `BUS_ADDR` (R61). -/
def transferLegal (t : Transfer) : Prop :=
  t.addr = 0x3C#7 ∧ ((∃ c : Byte, t.bytes = [0x80#8, c]) ∨ (∃ d : List Byte, d.length = 128 ∧ t.bytes = 0x40#8 :: d))

/-- Every completed transfer has a legal shape (R61, R63). -/
def traceLegal (s : State) : Prop := ∀ t ∈ s.trace, transferLegal t

/-- The legal states. -/
structure Legal (s : State) : Prop where
  status : statusLegal s.status
  memory : memoryLegal s
  empty : undefinedBitsEmpty s
  command : commandLegal s
  trace : traceLegal s

/-! ### Runs -/

/-- `k` steps from `s` all answer a next state, the last one being `t`: a run without a fault or a refusal. -/
def runsTo : Nat → State → State → Prop
  | 0, s, t => s = t
  | k + 1, s, t => ∃ u, step s = .next u ∧ runsTo k u t

/-- The next move is no reset. -/
def noReset (s : State) : Prop := s.inputs.head? ≠ some .reset

/-! ### The transfers of a command -/

/-- The command transfer `[0x80, c]` to `BUS_ADDR` (R63). -/
def cmdTransfer (c : Byte) : Transfer := ⟨0x3C#7, [0x80#8, c]⟩

/-- The data transfer `[0x40] ++ d` to `BUS_ADDR` (R63). -/
def dataTransfer (d : List Byte) : Transfer := ⟨0x3C#7, 0x40#8 :: d⟩

/-- The 22 transfers of INIT (R135). -/
def initTransfers (ops : InitOps) : List Transfer := (initSeq ops).toList.map cmdTransfer

/-- The four transfers of page `p` (R144). -/
def pageTransfers (s : State) (p : Nat) : List Transfer :=
  [cmdTransfer (0xB0#8 + BitVec.ofNat 8 p), cmdTransfer 0x02#8, cmdTransfer 0x10#8, dataTransfer (pageBytes s p)]

/-- The 32 transfers of RENDER, page by page (R145, R146). -/
def renderTransfers (s : State) : List Transfer := (List.range Geom.numPages).flatMap (pageTransfers s)

/-! ### Equal but for undefined bits -/

/-- Two states that differ at most in the value bits of framebuffer bits never written. -/
def agreeOnDefined (s t : State) : Prop :=
  t = { s with fb := t.fb } ∧ ∀ i, fbByte s i &&& defByte s i = fbByte t i &&& defByte t i

end Sys2Proof.Machine
end

