-- ==== Sys2Proof/Certificates/Slice0/Obligations.lean ====
section
/-! DEFINITION. The statements for the provers. Each docstring names the rules of spec/ it formalises. -/

open Sys2Proof Sys2Proof.Machine

/-! ### Encoding -/

/-- R93, the spec's own inference from R82 and R84: each of the eight example lines has the command word of the table, and that
word decodes to the line. -/
def Obligations.SpecExampleWordsDecode : Prop :=
  ∀ e ∈ [(Instr.setPixel 5 13 true, 0x10010D05#32), (Instr.setPixel 127 63 false, 0x10003F7F#32),
      (Instr.drawGlyph 0 0, 0x20000000#32), (Instr.drawGlyph 120 56, 0x20003878#32), (Instr.clear, 0x30000000#32),
      (Instr.init, 0x40000000#32), (Instr.render 1024, 0x50000400#32), (Instr.render 1023, 0x500003FF#32)],
    encode e.1 = e.2 ∧ decode e.2 = .ok e.1

/-- Sections 1 of 30_encoding.md (R82, R83): every command, with every operand value its format admits, is what its word decodes to. -/
def Obligations.DecodeOfEncodeIsTheCommand : Prop :=
  ∀ i : Instr, decode (encode i) = .ok i

/-- Section 1 of 30_encoding.md (R82, R85): a command has one word only, so no bit of a legal word is dropped. -/
def Obligations.EncodeOfDecodeIsTheWord : Prop :=
  ∀ (v : Word) (i : Instr), decode v = .ok i → encode i = v

/-- R84: `v` selects a command if and only if `v & mask = match` for its row, and a word whose `OP` is 0x0 or 0x6 to 0xF
selects none. -/
def Obligations.WordSelectsACommandIffItsRowMatches : Prop :=
  ∀ v : Word,
    (∀ e ∈ [(rowSetPixel, "SET_PIXEL", 0x10000000#32, 0xFFFE0000#32), (rowDrawGlyph, "DRAW_GLYPH", 0x20000000#32, 0xFFFF0000#32),
        (rowClear, "CLEAR", 0x30000000#32, 0xFFFFFFFF#32), (rowInit, "INIT", 0x40000000#32, 0xFFFFFFFF#32),
        (rowRender, "RENDER", 0x50000000#32, 0xFFFF0000#32)],
      (v &&& e.2.2.2 = e.2.2.1 ↔ ∃ i, decode v = .ok i ∧ i.row = e.1 ∧ i.mnemonic = e.2.1)) ∧
    ((v >>> 28).toNat = 0 ∨ 6 ≤ (v >>> 28).toNat → decode v = .error .opcode)

/-- R83: every operand is its zero-extended field, and every value of a field occurs, the out-of-range ones too. -/
def Obligations.OperandsAreTheZeroExtendedFields : Prop :=
  (∀ v : Word,
    (∀ x y val, decode v = .ok (.setPixel x y val) →
      x.toNat = v.toNat % 256 ∧ y.toNat = v.toNat / 256 % 256 ∧ (val = true ↔ v.toNat / 65536 % 2 = 1)) ∧
    (∀ x y, decode v = .ok (.drawGlyph x y) → x.toNat = v.toNat % 256 ∧ y.toNat = v.toNat / 256 % 256) ∧
    (∀ len, decode v = .ok (.render len) → len.toNat = v.toNat % 65536)) ∧
  (∀ x y val, ∃ v, decode v = .ok (.setPixel x y val)) ∧
  (∀ x y, ∃ v, decode v = .ok (.drawGlyph x y)) ∧
  (∀ len, ∃ v, decode v = .ok (.render len))

/-- R85, R86: outside the fault state a word whose `OP` is 0x0 or 0x6 to 0xF, or has a 1 in a reserved bit of the format its
`OP` names, raises ERR_ILLEGAL_CMD (FAULT = 1, ERR_CODE = 5, ERR_CMD = the word) and has no other effect. -/
def Obligations.IllegalWordRaisesIllegalCommand : Prop :=
  ∀ (s : State) (v : Word) (rest : List Input),
    s.inputs = .host (.write 0x000#11 4 v) :: rest → s.seq = .idle → faulted s = false →
    (let op := (v >>> 28).toNat
     op = 0 ∨ 6 ≤ op ∨ (op = 1 ∧ v &&& 0x0FFE0000#32 ≠ 0#32) ∨ ((op = 2 ∨ op = 5) ∧ v &&& 0x0FFF0000#32 ≠ 0#32) ∨
       ((op = 3 ∨ op = 4) ∧ v &&& 0x0FFFFFFF#32 ≠ 0#32)) →
    step s = .next { s with inputs := rest, status := (s.status &&& 0xFFFFFF0D#32) ||| 0x00000052#32, errCmd := v }

/-! ### The step -/

/-- R56, R81 (sections 2 of 20_memory.md and 1 of 30_encoding.md): a `CMD` write of a word that decodes to `i`, made with the
Block idle, is `exec i` on the state with that move taken. -/
def Obligations.StepRunsTheDecodedCommand : Prop :=
  ∀ (s : State) (v : Word) (i : Instr) (rest : List Input),
    s.inputs = .host (.write 0x000#11 4 v) :: rest → s.seq = .idle → decode v = .ok i →
    step s = exec i { s with inputs := rest }

/-- R67 (section 6 of 20_memory.md; that a waiting Host is an unchanged state is log entry 6): while a command is outstanding the Host makes no access and its `CMD` write does not complete, however long the
Transport waits; an access is made only with `seq` IDLE. -/
def Obligations.HostWaitsWhileACommandRuns : Prop :=
  (∀ (k : Nat) (s : State), s.seq ≠ .idle → (s.inputs = [] ∨ ∃ acc rest, s.inputs = .host acc :: rest) → runsTo k s s) ∧
  (∀ (s t : State) (acc : Access) (rest : List Input),
    s.inputs = .host acc :: rest → step s = .next t → t.inputs = rest → s.seq = .idle)

/-- R177 (section 1 of 60_exceptions.md) and R55 (section 2 of 20_memory.md); that the two outcomes are faults of the step is the
model's choice (log entries 4 and 5): a step is never refused, and stops only at a framebuffer byte with an undefined bit, or on
the access at the head of `inputs` when the table of R55 does not admit it. -/
def Obligations.StepStopsOnlyForTheTwoModelFaults : Prop :=
  ∀ s : State, (∀ r, step s ≠ .refused r) ∧
    (∀ i, step s = .fault (.uninit i) → byteDefined s i = false ∧ i < 1024 ∧ s.seq = .idle) ∧
    (∀ a n, step s = .fault (.notAdmitted a n) → s.seq = .idle ∧
      ¬ ((a.toNat < 0x01C ∧ n = 4 ∧ a.toNat % 4 = 0) ∨
         (0x400 ≤ a.toNat ∧ (n = 1 ∨ n = 2 ∨ n = 4) ∧ a.toNat % n = 0)) ∧
      admitted a n = false ∧
      ∃ rest, s.inputs = .host (.read a n) :: rest ∨ ∃ v, s.inputs = .host (.write a n v) :: rest)

/-! ### Errors and reset -/

/-- R172: what `raise Error(code)` during the execution of `v` sets, and that nothing else changes. -/
def Obligations.RaiseErrorRecordsCodeAndWord : Prop :=
  ∀ (c : ErrCode) (v : Word) (s : State),
    let t := raiseError c v s
    faulted t = true ∧ statusErrCode t.status = c.code ∧ t.errCmd = v ∧ t.seq = .idle ∧
    initDone t = initDone s ∧ t.fb = s.fb ∧ t.defd = s.defd ∧ t.glyphLo = s.glyphLo ∧ t.glyphHi = s.glyphHi ∧
    t.trace = s.trace ∧ t.inputs = s.inputs ∧ t.hostReads = s.hostReads

/-- R180, R216: in the fault state every command is ignored, the first error is kept through every step but a reset, and a
reset clears it. -/
def Obligations.ErrorsAreLatchedUntilReset : Prop :=
  ∀ s : State, faulted s = true →
    (∀ v rest, s.inputs = .host (.write 0x000#11 4 v) :: rest → s.seq = .idle → step s = .next { s with inputs := rest }) ∧
    (∀ t, step s = .next t → noReset s →
      faulted t = true ∧ statusErrCode t.status = statusErrCode s.status ∧ t.errCmd = s.errCmd) ∧
    (∀ rest, s.inputs = .reset :: rest → ∃ t, step s = .next t ∧ faulted t = false ∧
      statusErrCode t.status = 0#4 ∧ t.errCmd = 0#32)

/-- R174: an error leaves the framebuffer, TRACE and the glyph registers as they were, and none arises once a command's first
transfer is due. -/
def Obligations.ErrorsArePrecise : Prop :=
  (∀ (s t : State) (v : Word), faulted s = false → execute v s = .next t → faulted t = true →
    t.fb = s.fb ∧ t.defd = s.defd ∧ t.trace = s.trace ∧ t.glyphLo = s.glyphLo ∧ t.glyphHi = s.glyphHi ∧
    initDone t = initDone s ∧ t.errCmd = v) ∧
  (∀ s t : State, s.seq ≠ .idle → faulted s = false → step s = .next t → faulted t = false)

/-- R81, R175 (section 1 of 60_exceptions.md): the first condition that holds decides what a command word does. -/
def Obligations.FirstConditionDecidesTheError : Prop :=
  ∀ (s : State) (v : Word),
    if faulted s = true then execute v s = .next s
    else match decode v with
      | .error _ => execute v s = .next (raiseError .illegalCmd v s)
      | .ok (.render len) =>
        if initDone s = false then execute v s = .next (raiseError .notInit v s)
        else if len.toNat ≠ 1024 then execute v s = .next (raiseError .size v s)
        else (∀ i, i < 1024 → byteDefined s i = false → (∀ j, j < i → byteDefined s j = true) →
            execute v s = .fault (.uninit i)) ∧
          (allDefined s → ∃ t, execute v s = .next t ∧ faulted t = false)
      | .ok (.setPixel x y _) =>
        if 128 ≤ x.toNat ∨ 64 ≤ y.toNat then execute v s = .next (raiseError .geometry v s)
        else ∃ t, execute v s = .next t ∧ faulted t = false
      | .ok (.drawGlyph x y) =>
        if y.toNat % 8 ≠ 0 ∨ 64 ≤ y.toNat ∨ 128 < x.toNat + 8 then execute v s = .next (raiseError .geometry v s)
        else ∃ t, execute v s = .next t ∧ faulted t = false
      | .ok .clear => ∃ t, execute v s = .next t ∧ faulted t = false
      | .ok .init => ∃ t, execute v s = .next t ∧ faulted t = false

/-- R39: every piece of state right after reset; FB is unspecified, so no bit is defined. -/
def Obligations.ResetLeavesTheValuesOfTheSpec : Prop :=
  (∀ i b, (defByte State.reset i).getLsbD b = false) ∧ State.reset.status = 0x00000000#32 ∧
  statusInitDone State.reset.status = false ∧ statusFault State.reset.status = false ∧
  statusErrCode State.reset.status = 0#4 ∧ State.reset.errCmd = 0x00000000#32 ∧ State.reset.glyphLo = 0x00000000#32 ∧
  State.reset.glyphHi = 0x00000000#32 ∧ regRead .geom State.reset = 0x08084080#32 ∧
  regRead .buscfg State.reset = 0x4080023C#32 ∧ State.reset.seq = .idle ∧ State.reset.trace = []

/-- R200 (section 1 of 70_reset_and_hazards.md): a reset may come in any state and sets every piece of FBP's own state to its
reset value but TRACE, which keeps the accepted transfers (against the empty TRACE of R39: the model's reading, log entry 9, as is
that the moves still to come stay); nothing else leaves the fault state or a transfer the Transport does not accept (that waiting
is a step to the same state is log entry 6). -/
def Obligations.ResetFromAnyStateKeepsOnlyTheTrace : Prop :=
  ∀ s : State,
    (∀ rest, s.inputs = .reset :: rest → ∃ t, step s = .next t ∧ (∀ i b, (defByte t i).getLsbD b = false) ∧
      t.status = 0#32 ∧ t.errCmd = 0#32 ∧ t.glyphLo = 0#32 ∧ t.glyphHi = 0#32 ∧ t.seq = .idle ∧ t.trace = s.trace ∧
      t.inputs = rest) ∧
    (∀ t, faulted s = true → noReset s → step s = .next t → faulted t = true) ∧
    (s.seq ≠ .idle → noReset s → s.inputs.head? ≠ some .accept → step s = .next s)

/-- The reset state is a legal state (R39; the empty `inputs`, `hostReads` and value bits are the model's choices of the log
entries 1, 2 and 3). -/
def Obligations.ResetStateIsLegal : Prop := Legal State.reset

/-! ### The host port -/

/-- R54 (section 2 of 20_memory.md; the base is log entry 11): `FBP_BASE + a` reaches offset `a`, and FBP decodes no other Host address. -/
def Obligations.HostAddressReachesItsOffset : Prop :=
  (∀ a : Offset, hostOffset (Config.fbpBase + a.toNat) = some a) ∧
  (∀ addr : Nat, addr < Config.fbpBase ∨ Config.fbpBase + 2048 ≤ addr → hostOffset addr = none)

/-- R55, R58 (section 2 of 20_memory.md): the accesses of the table are admitted, every other one leaves the Host stuck, which is
the named fault `notAdmitted` by the model's choice (log entry 5; R55 says that the model gives it no step). -/
def Obligations.AdmittedAccessesAreThoseOfTheTable : Prop :=
  ∀ (s : State) (a : Offset) (n : Nat) (acc : Access) (rest : List Input),
    s.inputs = .host acc :: rest → s.seq = .idle → (acc = .read a n ∨ ∃ v, acc = .write a n v) →
    if (a.toNat < 0x01C ∧ n = 4 ∧ a.toNat % 4 = 0) ∨
       (0x400 ≤ a.toNat ∧ (n = 1 ∨ n = 2 ∨ n = 4) ∧ a.toNat % n = 0)
    then ∀ a' n', step s ≠ .fault (.notAdmitted a' n')
    else step s = .fault (.notAdmitted a n)

/-- R59: a word read at a register offset returns the register's value, `CMD` reads 0, and nothing else changes. -/
def Obligations.RegisterReadsReturnTheCurrentValue : Prop :=
  ∀ (s : State) (rest : List Input), s.seq = .idle →
    ∀ e ∈ [(0x000#11, 0x00000000#32), (0x004#11, s.status), (0x008#11, s.errCmd), (0x00C#11, s.glyphLo),
        (0x010#11, s.glyphHi), (0x014#11, 0x08084080#32), (0x018#11, 0x4080023C#32)],
      s.inputs = .host (.read e.1 4) :: rest →
      step s = .next { s with inputs := rest, hostReads := s.hostReads ++ [e.2] }

/-- R31, R32: the constant registers, at their offsets and read-only, hold the parameters of R8 and R9, field by field. -/
def Obligations.ConstantRegistersHoldTheParameters : Prop :=
  ∀ s : State,
    let g := regRead .geom s
    let b := regRead .buscfg s
    g = 0x08084080#32 ∧ (g.extractLsb' 0 8).toNat = 128 ∧ (g.extractLsb' 8 8).toNat = 64 ∧
    (g.extractLsb' 16 8).toNat = 8 ∧ (g.extractLsb' 24 8).toNat = 8 ∧
    b = 0x4080023C#32 ∧ b.extractLsb' 0 7 = 0x3C#7 ∧ b.getLsbD 7 = false ∧ b.extractLsb' 8 8 = 0x02#8 ∧
    b.extractLsb' 16 8 = 0x80#8 ∧ b.extractLsb' 24 8 = 0x40#8 ∧
    regAt 0x014#11 = some .geom ∧ regAt 0x018#11 = some .buscfg ∧
    (∀ v, regWrite .geom v s = .next s ∧ regWrite .buscfg v s = .next s) ∧
    Geom.W = 128 ∧ Geom.H = 64 ∧ Geom.pageH = 8 ∧ Geom.numPages = 8 ∧
    Bus.addr = 0x3C#7 ∧ Bus.colOffset = 0x02#8 ∧ Bus.cmdMarker = 0x80#8 ∧ Bus.dataMarker = 0x40#8

/-- R56: what a legal Host write does, in every state: the glyph registers take the word, `CMD` executes it, the read-only
registers and the window ignore it. -/
def Obligations.HostWritesReachOnlyTheirRegister : Prop :=
  ∀ (s : State) (v : Word) (rest : List Input), s.seq = .idle →
    (s.inputs = .host (.write 0x000#11 4 v) :: rest → step s = execute v { s with inputs := rest }) ∧
    (s.inputs = .host (.write 0x00C#11 4 v) :: rest → step s = .next { s with inputs := rest, glyphLo := v }) ∧
    (s.inputs = .host (.write 0x010#11 4 v) :: rest → step s = .next { s with inputs := rest, glyphHi := v }) ∧
    (∀ a ∈ [0x004#11, 0x008#11, 0x014#11, 0x018#11],
      s.inputs = .host (.write a 4 v) :: rest → step s = .next { s with inputs := rest }) ∧
    (∀ (a : Offset) (n : Nat), 0x400 ≤ a.toNat → (n = 1 ∨ n = 2 ∨ n = 4) → a.toNat % n = 0 →
      s.inputs = .host (.write a n v) :: rest → step s = .next { s with inputs := rest })

/-- R57: a legal window read answers the bytes little-endian, or the model fault at the lowest byte with an undefined bit. -/
def Obligations.WindowReadAnswersTheBytesLittleEndian : Prop :=
  ∀ (s : State) (i n : Nat) (rest : List Input),
    (n = 1 ∨ n = 2 ∨ n = 4) → i % n = 0 → i < 1024 → s.seq = .idle →
    s.inputs = .host (.read (BitVec.ofNat 11 (0x400 + i)) n) :: rest →
    ((∀ k, k < n → defByte s (i + k) = 0xFF#8) →
      step s = .next { s with
        inputs := rest
        hostReads := s.hostReads ++ [BitVec.ofNat 32 (∑ k ∈ Finset.range n, (fbByte s (i + k)).toNat * 256 ^ k)] }) ∧
    (∀ k, k < n → defByte s (i + k) ≠ 0xFF#8 → (∀ j, j < k → defByte s (i + j) = 0xFF#8) →
      step s = .fault (.uninit (i + k)))

/-- R52, the spec's own inference from R51 and R57: a halfword and a word read see the same bytes as the byte reads, each of which answers `FB[j]`. -/
def Obligations.WindowWidthsSeeTheSameBytes : Prop :=
  (∀ (s : State) (j : Nat), j < 1024 → defByte s j = 0xFF#8 →
    hostAccess (.read (BitVec.ofNat 11 (0x400 + j)) 1) s = .next (answerRead ((fbByte s j).setWidth 32) s)) ∧
  (∀ (s : State) (i : Nat), i < 1024 → i % 2 = 0 → (∀ k, k < 2 → defByte s (i + k) = 0xFF#8) →
    hostAccess (.read (BitVec.ofNat 11 (0x400 + i)) 2) s =
      .next (answerRead ((fbByte s i).setWidth 32 ||| (fbByte s (i + 1)).setWidth 32 <<< 8) s)) ∧
  (∀ (s : State) (i : Nat), i < 1024 → i % 4 = 0 → (∀ k, k < 4 → defByte s (i + k) = 0xFF#8) →
    hostAccess (.read (BitVec.ofNat 11 (0x400 + i)) 4) s =
      .next (answerRead ((fbByte s i).setWidth 32 ||| (fbByte s (i + 1)).setWidth 32 <<< 8 |||
        (fbByte s (i + 2)).setWidth 32 <<< 16 ||| (fbByte s (i + 3)).setWidth 32 <<< 24) s))

/-- R29: the glyph registers keep and read back every word written, and `G[k]` is byte `k` of the pair; both reset to 0. -/
def Obligations.GlyphRegistersHoldTheGlyphBytes : Prop :=
  State.reset.glyphLo = 0#32 ∧ State.reset.glyphHi = 0#32 ∧
  ∀ (s : State) (v w : Word) (rest : List Input), s.seq = .idle →
    s.inputs = .host (.write 0x00C#11 4 v) :: .host (.write 0x010#11 4 w) :: .host (.read 0x00C#11 4) ::
      .host (.read 0x010#11 4) :: rest →
    ∃ t, runsTo 4 s t ∧ t.hostReads = s.hostReads ++ [v, w] ∧
      (∀ k, k < 4 → glyphByte t k = v.extractLsb' (8 * k) 8) ∧
      (∀ k, 4 ≤ k → k < 8 → glyphByte t k = w.extractLsb' (8 * (k - 4)) 8)

/-- R33, R211 (sections 4 of 10_state.md and 3 of 70): no command and no acceptance changes a glyph register; only a Host
write to it or a reset does. -/
def Obligations.GlyphRegistersChangeOnlyByHostWrites : Prop :=
  ∀ s t : State, step s = .next t → noReset s →
    (t.glyphLo = s.glyphLo ∨ ∃ v rest, s.inputs = .host (.write 0x00C#11 4 v) :: rest ∧ s.seq = .idle ∧ t.glyphLo = v) ∧
    (t.glyphHi = s.glyphHi ∨ ∃ v rest, s.inputs = .host (.write 0x010#11 4 v) :: rest ∧ s.seq = .idle ∧ t.glyphHi = v)

/-! ### Framebuffer commands -/

/-- R23, the spec's own inference from R22: the map from pixels to framebuffer bits is a bijection, with the inverse the rule gives. -/
def Obligations.PixelsAreExactlyTheFramebufferBits : Prop :=
  (∀ x y : BitVec 8, x.toNat < 128 → y.toNat < 64 →
    byteIdx x y = (y.toNat / 8) * 128 + x.toNat ∧ bitIdx y = y.toNat % 8 ∧ byteIdx x y < 1024 ∧ bitIdx y < 8 ∧
    byteIdx x y % 128 = x.toNat ∧ (byteIdx x y / 128) * 8 + bitIdx y = y.toNat) ∧
  (∀ i b : Nat, i < 1024 → b < 8 → ∃! q : BitVec 8 × BitVec 8,
    q.1.toNat < 128 ∧ q.2.toNat < 64 ∧ byteIdx q.1 q.2 = i ∧ bitIdx q.2 = b)

/-- R101, R102 (sections 1 and 2 of 40_framebuffer.md): a legal SET_PIXEL runs, sets or clears its one bit, defines it, and
leaves every other bit, every other DEF bit and all other state as they were. -/
def Obligations.SetPixelWritesExactlyItsBit : Prop :=
  ∀ (s : State) (x y : BitVec 8) (val : Bool), faulted s = false → x.toNat < 128 → y.toNat < 64 →
    ∃ t, exec (.setPixel x y val) s = .next t ∧ t = { s with fb := t.fb, defd := t.defd } ∧
      ∀ j b, b < 8 →
        (fbByte t j).getLsbD b =
          (if j = (y.toNat / 8) * 128 + x.toNat ∧ b = y.toNat % 8 then val else (fbByte s j).getLsbD b) ∧
        (defByte t j).getLsbD b =
          (if j = (y.toNat / 8) * 128 + x.toNat ∧ b = y.toNat % 8 then true else (defByte s j).getLsbD b)

/-- R102, R170 (section 2 of 40_framebuffer.md): a SET_PIXEL outside the display raises ERR_GEOMETRY with its word in ERR_CMD
and changes nothing else. -/
def Obligations.SetPixelOutsideTheDisplayRaisesGeometry : Prop :=
  ∀ (s : State) (x y : BitVec 8) (val : Bool), faulted s = false → 128 ≤ x.toNat ∨ 64 ≤ y.toNat →
    exec (.setPixel x y val) s = .next { s with
      status := (s.status &&& 0xFFFFFF0D#32) ||| 0x00000012#32
      errCmd := BitVec.ofNat 32 (0x10000000 + (if val then 65536 else 0) + y.toNat * 256 + x.toNat)
      seq := .idle }

/-- R103, the spec's own inference from R101 and R102: setting and then clearing a pixel leaves its bit 0 and defined, and every other bit of every byte unchanged. -/
def Obligations.SettingThenClearingAPixelIsIsolated : Prop :=
  ∀ (s : State) (x y : BitVec 8), faulted s = false → x.toNat < 128 → y.toNat < 64 →
    ∃ u t, exec (.setPixel x y true) s = .next u ∧ exec (.setPixel x y false) u = .next t ∧
      (fbByte t (byteIdx x y)).getLsbD (y.toNat % 8) = false ∧
      (defByte t (byteIdx x y)).getLsbD (y.toNat % 8) = true ∧
      ∀ j b, b < 8 → ¬ (j = byteIdx x y ∧ b = y.toNat % 8) → (fbByte t j).getLsbD b = (fbByte s j).getLsbD b

/-- R104, the spec's own inference from R101 and R102: of two writes to one pixel the last decides, and writes to different pixels commute, as whole states (the memories
being in the canonical form every step keeps). -/
def Obligations.PixelWritesLastDecidesAndOthersCommute : Prop :=
  (∀ (s u : State) (x y : BitVec 8) (val val' : Bool), memoryLegal s →
    exec (.setPixel x y val) s = .next u → faulted u = false →
    exec (.setPixel x y val') u = exec (.setPixel x y val') s) ∧
  (∀ (s u w : State) (x y x' y' : BitVec 8) (val val' : Bool), memoryLegal s → (x, y) ≠ (x', y') →
    exec (.setPixel x y val) s = .next u → exec (.setPixel x' y' val') s = .next w → faulted u = false → faulted w = false →
    exec (.setPixel x' y' val') u = exec (.setPixel x y val) w)

/-- R106 with R109, the latter the spec's own inference from R106: a legal DRAW_GLYPH runs and writes exactly the eight bytes of its origin, each the staged glyph byte of its column,
all their bits defined; every other byte, every other DEF bit and all other state stay. -/
def Obligations.DrawGlyphCopiesTheStagedGlyph : Prop :=
  ∀ (s : State) (x y : BitVec 8), faulted s = false → y.toNat % 8 = 0 → y.toNat < 64 → x.toNat + 8 ≤ 128 →
    ∃ t, exec (.drawGlyph x y) s = .next t ∧ t = { s with fb := t.fb, defd := t.defd } ∧
      (∀ k, k < 4 → fbByte t ((y.toNat / 8) * 128 + x.toNat + k) = s.glyphLo.extractLsb' (8 * k) 8) ∧
      (∀ k, k < 4 → fbByte t ((y.toNat / 8) * 128 + x.toNat + 4 + k) = s.glyphHi.extractLsb' (8 * k) 8) ∧
      (∀ k, k < 8 → defByte t ((y.toNat / 8) * 128 + x.toNat + k) = 0xFF#8) ∧
      (∀ j, (∀ k, k < 8 → j ≠ (y.toNat / 8) * 128 + x.toNat + k) → fbByte t j = fbByte s j ∧ defByte t j = defByte s j)

/-- R107, the spec's own inference from R106: the legal glyph origins are exactly x in 0..120 with y in {0, 8, ..., 56}, 968 of them, each glyph in one page;
every other origin raises ERR_GEOMETRY with the word in ERR_CMD and nothing written. -/
def Obligations.GlyphOriginsAreTheLegalOnes : Prop :=
  (∀ (s : State) (x y : BitVec 8), faulted s = false →
    if x.toNat ≤ 120 ∧ y.toNat ∈ [0, 8, 16, 24, 32, 40, 48, 56]
    then (∃ t, exec (.drawGlyph x y) s = .next t ∧ faulted t = false) ∧ (byteIdx x y + 7) / 128 = byteIdx x y / 128
    else exec (.drawGlyph x y) s = .next { s with
      status := (s.status &&& 0xFFFFFF0D#32) ||| 0x00000012#32
      errCmd := BitVec.ofNat 32 (0x20000000 + y.toNat * 256 + x.toNat)
      seq := .idle }) ∧
  ((List.range 256).flatMap fun x => (List.range 256).filter fun y =>
    originLegal (BitVec.ofNat 8 x) (BitVec.ofNat 8 y)).length = 968

/-- R108, the spec's own inference from R106: LOAD_GLYPH, DRAW_GLYPH at a legal origin and a byte read of the window return the glyph's bytes. -/
def Obligations.GlyphReadsBackUnchanged : Prop :=
  ∀ (s : State) (x y : BitVec 8) (b0 b1 b2 b3 b4 b5 b6 b7 : Byte) (k : Nat) (rest : List Input),
    s.seq = .idle → faulted s = false → y.toNat % 8 = 0 → y.toNat < 64 → x.toNat ≤ 120 → k < 8 →
    s.inputs = ((AsmLine.loadGlyph b0 b1 b2 b3 b4 b5 b6 b7).expand ++ (AsmLine.drawGlyph x y).expand ++
      (AsmLine.rdb (BitVec.ofNat 10 ((y.toNat / 8) * 128 + x.toNat + k))).expand).map Input.host ++ rest →
    ∃ t, runsTo 4 s t ∧ t.inputs = rest ∧
      t.hostReads = s.hostReads ++ [([b0, b1, b2, b3, b4, b5, b6, b7].getD k 0#8).setWidth 32]

/-- R111 (section 4 of 40_framebuffer.md): CLEAR runs in every state with FAULT = 0, before or after INIT, turns every pixel
off, defines every bit, changes no other state, and a second CLEAR changes nothing. -/
def Obligations.ClearTurnsEveryPixelOff : Prop :=
  ∀ s : State, faulted s = false →
    ∃ t, exec .clear s = .next t ∧ t = { s with fb := t.fb, defd := t.defd } ∧
      (∀ i, i < 1024 → fbByte t i = 0x00#8 ∧ defByte t i = 0xFF#8) ∧ exec .clear t = .next t

/-- R111 (section 4 of 40_framebuffer.md): the canonical form CLEAR answers is what the rule's own loop of 1024 `writeByte`s
leaves. -/
def Obligations.ClearIsTheLoopOfTheRule : Prop :=
  ∀ s : State, memoryLegal s → faulted s = false →
    exec .clear s = .next ((List.range 1024).foldl (fun u i => writeByte i 0x00#8 u) s)

/-- R100, R102, R106, R111 (40_framebuffer.md): what SET_PIXEL, DRAW_GLYPH and CLEAR leave unchanged in every state and on
every path: the glyph registers, TRACE, the agents' lists, INIT_DONE and the reserved STATUS bits always; STATUS and ERR_CMD
unless an error is raised; every framebuffer byte but those stored to, all of them on an error, and the whole state in the fault
state (R173). -/
def Obligations.FramebufferCommandsFrame : Prop :=
  ∀ (i : Instr) (s t : State), exec i s = .next t → ((∃ x y val, i = .setPixel x y val) ∨ (∃ x y, i = .drawGlyph x y) ∨ i = .clear) →
    t.glyphLo = s.glyphLo ∧ t.glyphHi = s.glyphHi ∧ t.trace = s.trace ∧ t.inputs = s.inputs ∧ t.hostReads = s.hostReads ∧
    initDone t = initDone s ∧ t.status &&& 0xFFFFFF0D#32 = s.status &&& 0xFFFFFF0D#32 ∧
    (t.seq = s.seq ∧ t.status = s.status ∧ t.errCmd = s.errCmd ∨
      t.seq = .idle ∧ faulted s = false ∧ faulted t = true ∧ t.fb = s.fb ∧ t.defd = s.defd) ∧
    (∀ x y val, i = .setPixel x y val → ∀ j, j ≠ byteIdx x y → fbByte t j = fbByte s j ∧ defByte t j = defByte s j) ∧
    (∀ x y, i = .drawGlyph x y → ∀ j, j < byteIdx x y ∨ byteIdx x y + 8 ≤ j →
      fbByte t j = fbByte s j ∧ defByte t j = defByte s j) ∧
    (i = .clear → faulted t = faulted s) ∧
    (faulted s = true → t = s)

/-- R64 (section 4 of 20_memory.md): only SET_PIXEL, DRAW_GLYPH and CLEAR, not ignored in the fault state, and reset change
the framebuffer or its definedness. -/
def Obligations.FramebufferChangesOnlyByItsCommands : Prop :=
  ∀ s t : State, step s = .next t → noReset s → (t.fb ≠ s.fb ∨ t.defd ≠ s.defd) →
    faulted s = false ∧ s.seq = .idle ∧ ∃ v i rest, s.inputs = .host (.write 0x000#11 4 v) :: rest ∧ decode v = .ok i ∧
      ((∃ x y val, i = .setPixel x y val) ∨ (∃ x y, i = .drawGlyph x y) ∨ i = .clear)

/-! ### Controller commands -/

/-- R134: the 22 bytes of `INIT_SEQ`, for every `INIT_OPS`. -/
def Obligations.InitStreamIsTheTableOfTheRule : Prop :=
  ∀ o : InitOps, (initSeq o).toList =
    [o.displayOff, o.startLine0, o.segRemapOn, o.mux, 0x3F#8, o.comScanRemap, o.displayOffset, 0x00#8, o.comPins, 0x12#8,
     o.clockDiv, 0x80#8, o.precharge, 0xF1#8, o.vcomDeselect, 0x35#8, o.contrast, 0xFF#8, o.entireOnRam, o.normalDisplay,
     o.chargePump, o.displayOn]

/-- R88 and R89 (section 2 of 30_encoding.md): the addressing bytes RENDER emits, bit by bit: 0xB0..0xB7 by page, then 0x02 and
0x10. The last clause, that these carry column address 2, is R89, the spec's own inference from R88. -/
def Obligations.AddressingBytesAreThoseOfTheRule : Prop :=
  (∀ p : Fin 8, (pageCmd p).toNat = 0xB0 + p.val ∧ (pageCmd p).extractLsb' 4 4 = 0b1011#4 ∧
    ((pageCmd p).extractLsb' 0 4).toNat = p.val) ∧
  colLoCmd = 0x02#8 ∧ colHiCmd = 0x10#8 ∧
  colLoCmd.extractLsb' 4 4 = 0b0000#4 ∧ colHiCmd.extractLsb' 4 4 = 0b0001#4 ∧
  (colHiCmd.extractLsb' 0 4).toNat * 16 + (colLoCmd.extractLsb' 0 4).toNat = 0 + Bus.colOffset.toNat

/-- R136 and R138, with the 44 bytes of R135, which is the spec's own inference (section 3 of 41_controller.md; the step per
transfer is log entry 7): INIT runs in every state with FAULT = 0, and once the Transport has accepted 22 transfers it has
appended the 22 command transfers of `INIT_SEQ`, set INIT_DONE, returned to IDLE, and changed nothing else. -/
def Obligations.InitSendsTheWholeStream : Prop :=
  ∀ (s : State) (rest : List Input), faulted s = false →
    exec .init s = .next { s with seq := .init 0 } ∧
    (s.inputs = List.replicate 22 .accept ++ rest →
      runsTo 22 { s with seq := .init 0 } { s with
        seq := .idle, status := s.status ||| 0x00000001#32, inputs := rest
        trace := s.trace ++ initTransfers Config.initOps } ∧
      (initTransfers Config.initOps).length = 22 ∧
      ((initTransfers Config.initOps).map (fun x => x.bytes.length)).sum = 44)

/-- R136, R214 (sections 3 of 41_controller.md and 3 of 70; the start and the step per transfer are the model's reading, log entry 7,
and so is a hang as steps that answer the same state, log entry 6): where the Transport accepts only `k < 22` transfers, INIT stays at
INIT(k) for ever with INIT_DONE as it was. -/
def Obligations.InitHangsAtTheTransferNeverAccepted : Prop :=
  ∀ (s : State) (k m : Nat) (hk : k < 22), faulted s = false → s.inputs = List.replicate k .accept →
    exec .init s = .next { s with seq := .init 0 } ∧
    runsTo (k + m) { s with seq := .init 0 } { s with
      seq := .init ⟨k, hk⟩, inputs := [], trace := s.trace ++ (initTransfers Config.initOps).take k }

/-- R137: INIT_DONE becomes 1 only by the acceptance of the 22nd init transfer, and then it does; only reset clears it. -/
def Obligations.InitDoneIsSetByTheLastInitTransferOnly : Prop :=
  ∀ s t : State, step s = .next t →
    (initDone s = false → initDone t = true → s.seq = .init 21 ∧ ∃ rest, s.inputs = .accept :: rest) ∧
    (s.seq = .init 21 → (∃ rest, s.inputs = .accept :: rest) → initDone t = true) ∧
    (initDone s = true → noReset s → initDone t = true)

/-- R142, R143: a RENDER before INIT raises ERR_NOT_INIT; after INIT a length other than 1024 raises ERR_SIZE; then the lowest
byte with an undefined bit is the model fault; none makes a transfer. -/
def Obligations.RenderChecksBeforeAnyTransfer : Prop :=
  ∀ (s : State) (len : BitVec 16), faulted s = false →
    (initDone s = false → exec (.render len) s = .next { s with
      status := (s.status &&& 0xFFFFFF0D#32) ||| 0x00000042#32, errCmd := BitVec.ofNat 32 (0x50000000 + len.toNat), seq := .idle }) ∧
    (initDone s = true → len.toNat ≠ 1024 → exec (.render len) s = .next { s with
      status := (s.status &&& 0xFFFFFF0D#32) ||| 0x00000022#32, errCmd := BitVec.ofNat 32 (0x50000000 + len.toNat), seq := .idle }) ∧
    (∀ i, initDone s = true → len.toNat = 1024 → i < 1024 → defByte s i ≠ 0xFF#8 → (∀ j, j < i → defByte s j = 0xFF#8) →
      exec (.render len) s = .fault (.uninit i))

/-- R144, R145, R148, and R146, which is the spec's own inference (section 4 of 41_controller.md; the step per transfer is log
entry 7, the frame read at each transfer log entry 12): a RENDER of 1024 bytes after INIT with every bit defined runs, and once the Transport has accepted
32 transfers it has appended, page by page in increasing order, the four transfers of each page, returned to IDLE, and changed
nothing else; for any framebuffer content. -/
def Obligations.RenderSendsTheWholeFrame : Prop :=
  ∀ (s : State) (rest : List Input), faulted s = false → initDone s = true → allDefined s →
    exec (.render 1024) s = .next { s with seq := .render 0 0 } ∧
    (s.inputs = List.replicate 32 .accept ++ rest →
      runsTo 32 { s with seq := .render 0 0 } { s with
        seq := .idle, inputs := rest, trace := s.trace ++ renderTransfers s }) ∧
    (renderTransfers s).length = 32 ∧
    (∀ p, p < 8 → ((renderTransfers s).drop (4 * p)).take 4 =
      [⟨0x3C#7, [0x80#8, 0xB0#8 + BitVec.ofNat 8 p]⟩, ⟨0x3C#7, [0x80#8, 0x02#8]⟩, ⟨0x3C#7, [0x80#8, 0x10#8]⟩,
       ⟨0x3C#7, 0x40#8 :: (List.range 128).map (fun x => fbByte s (p * 128 + x))⟩])

/-- R147, the spec's own inference from R144 and R145: a frame is 1080 bytes in 32 transfers, and FB[i] is byte 1 + i % 128 of transfer 4 * (i / 128) + 3. -/
def Obligations.FrameCarriesEachByteOnce : Prop :=
  ∀ s : State, (renderTransfers s).length = 32 ∧
    ((renderTransfers s).map (fun x => x.bytes.length)).sum = 1080 ∧
    ((renderTransfers s).map (fun x => if x.bytes.length = 129 then x.bytes.length - 1 else 0)).sum = 1024 ∧
    ∀ i, i < 1024 → ∃ x, (renderTransfers s)[4 * (i / 128) + 3]? = some x ∧ x.bytes.length = 129 ∧
      x.bytes[1 + i % 128]? = some (fbByte s i)

/-- R215 and R148 for RENDER, R131 and R67 for INIT (sections 3 of 70, 4 and 1 of 41_controller.md, 6 of 20_memory.md): while a
command is in progress no step but a reset changes FB, DEF, the glyph registers or ERR_CMD, or completes a Host read, so the bytes
a RENDER sends are those it began with. -/
def Obligations.NoFramebufferChangeWhileACommandRuns : Prop :=
  ∀ s t : State, s.seq ≠ .idle → step s = .next t → noReset s →
    t.fb = s.fb ∧ t.defd = s.defd ∧ t.glyphLo = s.glyphLo ∧ t.glyphHi = s.glyphHi ∧ t.errCmd = s.errCmd ∧
    t.hostReads = s.hostReads ∧ (∀ p j, s.seq = .render p j → t.status = s.status)

/-- R40, R60, R62, R200 (sections 3 of 20_memory.md, 6 of 10_state.md and 1 of 70): TRACE changes only by an acceptance while a
command is in progress, and then by exactly one transfer at its end. That it stays over a reset is the model's reading of R39 and
R200 (log entry 9), and over an acceptance with no command in progress the model's choice (log entry 13). -/
def Obligations.TraceGrowsByOneAcceptedTransfer : Prop :=
  ∀ s t : State, step s = .next t →
    if s.seq ≠ .idle ∧ s.inputs.head? = some .accept then ∃ x, t.trace = s.trace ++ [x] else t.trace = s.trace

/-- R150 (section 5 of 41_controller.md; an observation over TRACE that rests on the column advance of log entry 14, which is
PRESUMED, and on the model's choices of log entry 20 for what the spec leaves open of the controller's RAM): after the transfers of a RENDER, from any controller state, RAM page p, column x + 2 holds FB[p*128 + x]. -/
def Obligations.ControllerImageIsTheFramebuffer : Prop :=
  ∀ (s : State) (q : Panel) (p x : Nat), p < 8 → x < 128 →
    (controllerImage q (renderTransfers s)).at p (x + 2) = some (fbByte s (p * 128 + x))

/-! ### Invariants of the step -/

/-- R27 (section 3 of 10_state.md): every step keeps STATUS a legal value: reserved bits 0, ERR_CODE in {0, 1, 2, 4, 5},
FAULT = 0 if and only if ERR_CODE = 0. -/
def Obligations.StepKeepsStatusLegal : Prop :=
  ∀ s t : State, statusLegal s.status → step s = .next t → statusLegal t.status

/-- R21, R37 (10_state.md): every step keeps FB and DEF in canonical form within the 1024 bytes of the index space. -/
def Obligations.StepKeepsMemoryCanonical : Prop :=
  ∀ s t : State, memoryLegal s → step s = .next t → memoryLegal t

/-- R24 (section 2 of 10_state.md; log entry 3 is the model's choice of representation): every step keeps a never-written bit
without a value. -/
def Obligations.StepKeepsUndefinedBitsEmpty : Prop :=
  ∀ s t : State, undefinedBitsEmpty s → step s = .next t → undefinedBitsEmpty t

/-- R61, R63: every transfer FBP makes goes to 0x3C and is a command transfer of two bytes or a data transfer of 129. -/
def Obligations.EveryTransferHasALegalShape : Prop :=
  ∀ s t : State, traceLegal s → step s = .next t → traceLegal t

/-- R69, R141, R142, R143, R174: every step keeps a command in progress without an error, and a RENDER in progress with
INIT_DONE = 1 and every framebuffer bit defined, so no undefined bit is ever sent. -/
def Obligations.RenderInProgressHasADefinedFrame : Prop :=
  ∀ s t : State, commandLegal s → step s = .next t → commandLegal t

/-- R24, R111, R212 (10_state.md section 2, 40_framebuffer.md section 4): a written bit stays written until reset, and with
every bit defined no step is the model fault F_UNINIT. -/
def Obligations.WrittenBitsStayDefinedUntilReset : Prop :=
  ∀ s : State,
    (∀ t, step s = .next t → noReset s → ∀ i b, i < 1024 → (defByte s i).getLsbD b = true → (defByte t i).getLsbD b = true) ∧
    (allDefined s → ∀ i, step s ≠ .fault (.uninit i))

/-- R24, R25 (section 2 of 10_state.md): the value bits under DEF = 0 influence nothing: two states that differ only there
step to states that differ only there, or stop for the same reason. -/
def Obligations.UndefinedBitsInfluenceNothing : Prop :=
  ∀ s s' : State, agreeOnDefined s s' → commandLegal s →
    (∀ t, step s = .next t → ∃ t', step s' = .next t' ∧ agreeOnDefined t t') ∧
    (∀ f, step s = .fault f → step s' = .fault f)
end

