-- ==== Sys2Proof/Laws/PerInstr.lean ====
section
/-! SUPPORT. The bits of a command's word, and the family `Selected`: the opcode-map row of each command selects its word (R84). -/

namespace Sys2Proof

theorem encode_setPixel_bit (x y : BitVec 8) (val : Bool) (j : Nat) :
    (encode (.setPixel x y val)).getLsbD j =
      if j < 8 then x.getLsbD j else if j < 16 then y.getLsbD (j - 8)
      else if j = 16 then val else decide (j = 28) := by
  by_cases h : j < 32
  · simp only [encode, BitVec.getLsbD_or, BitVec.getLsbD_shiftLeft, BitVec.getLsbD_setWidth]
    interval_cases j <;> simp
  · rw [BitVec.getLsbD_of_ge _ j (by omega), if_neg (by omega), if_neg (by omega), if_neg (by omega)]
    exact (decide_eq_false (by omega)).symm

theorem encode_drawGlyph_bit (x y : BitVec 8) (j : Nat) :
    (encode (.drawGlyph x y)).getLsbD j =
      if j < 8 then x.getLsbD j else if j < 16 then y.getLsbD (j - 8) else decide (j = 29) := by
  by_cases h : j < 32
  · simp only [encode, BitVec.getLsbD_or, BitVec.getLsbD_shiftLeft, BitVec.getLsbD_setWidth]
    interval_cases j <;> simp
  · rw [BitVec.getLsbD_of_ge _ j (by omega), if_neg (by omega), if_neg (by omega)]
    exact (decide_eq_false (by omega)).symm

theorem encode_render_bit (len : BitVec 16) (j : Nat) :
    (encode (.render len)).getLsbD j = if j < 16 then len.getLsbD j else decide (j = 28 ∨ j = 30) := by
  by_cases h : j < 32
  · simp only [encode, BitVec.getLsbD_or, BitVec.getLsbD_setWidth]
    interval_cases j <;> simp
  · rw [BitVec.getLsbD_of_ge _ j (by omega), if_neg (by omega)]
    exact (decide_eq_false (by omega)).symm

namespace Laws.Selected

/-- The row of `i` in the opcode map selects the word of `i` (R84). -/
def Statement (i : Instr) : Prop := i.row.selects (encode i) = true

theorem setPixel (x y : BitVec 8) (val : Bool) : Statement (.setPixel x y val) := by
  refine beq_iff_eq.mpr (BitVec.eq_of_getLsbD_eq fun j hj => ?_)
  rw [Instr.row, rowSetPixel, BitVec.getLsbD_and, encode_setPixel_bit]
  interval_cases j <;> simp

theorem drawGlyph (x y : BitVec 8) : Statement (.drawGlyph x y) := by
  refine beq_iff_eq.mpr (BitVec.eq_of_getLsbD_eq fun j hj => ?_)
  rw [Instr.row, rowDrawGlyph, BitVec.getLsbD_and, encode_drawGlyph_bit]
  interval_cases j <;> simp

theorem clear : Statement .clear := by unfold Statement; decide

theorem init : Statement .init := by unfold Statement; decide

theorem render (len : BitVec 16) : Statement (.render len) := by
  refine beq_iff_eq.mpr (BitVec.eq_of_getLsbD_eq fun j hj => ?_)
  rw [Instr.row, rowRender, BitVec.getLsbD_and, encode_render_bit]
  interval_cases j <;> simp

end Laws.Selected

end Sys2Proof
end

