-- ==== Sys2Proof/Laws/Decode.lean ====
section
/-! SUPPORT. What the decoder can answer, and what a row of the opcode map selects, said through the word's fields. -/

namespace Sys2Proof

/-- A bit of a word read through the field it lies in. -/
theorem bit_of_field {n : Nat} {v : Word} {lo : Nat} {c : BitVec n} (h : v.extractLsb' lo n = c) (j : Nat) (hj : lo ≤ j)
    (hj' : j < lo + n) : v.getLsbD j = c.getLsbD (j - lo) := by
  rw [← h, BitVec.getLsbD_extractLsb']; simp [show j - lo < n by omega, show lo + (j - lo) = j by omega]

/-- What a word that decodes to a command looks like (R81, R82). -/
theorem decode_cases {v : Word} {i : Instr} (h : decode v = .ok i) :
    (opField v = 1#4 ∧ reservedP v = 0#11 ∧ i = .setPixel (xField v) (yField v) (onField v)) ∨
    (opField v = 2#4 ∧ reservedGL v = 0#12 ∧ i = .drawGlyph (xField v) (yField v)) ∨
    (opField v = 3#4 ∧ reservedN v = 0#28 ∧ i = .clear) ∨
    (opField v = 4#4 ∧ reservedN v = 0#28 ∧ i = .init) ∨
    (opField v = 5#4 ∧ reservedGL v = 0#12 ∧ i = .render (lenField v)) := by
  unfold decode ifClear at h
  split at h
  · split at h
    · cases h; simp_all
    · cases h
  split at h
  · split at h
    · cases h; simp_all
    · cases h
  split at h
  · split at h
    · cases h; simp_all
    · cases h
  split at h
  · split at h
    · cases h; simp_all
    · cases h
  split at h
  · split at h
    · cases h; simp_all
    · cases h
  cases h

/-- A word that is no command has an unassigned opcode or a reserved bit set (R85, R86). -/
theorem decode_error_iff (v : Word) : (∃ e, decode v = .error e) ↔
    ¬ (opField v = 1#4 ∧ reservedP v = 0#11 ∨ opField v = 2#4 ∧ reservedGL v = 0#12 ∨ opField v = 3#4 ∧ reservedN v = 0#28 ∨
      opField v = 4#4 ∧ reservedN v = 0#28 ∨ opField v = 5#4 ∧ reservedGL v = 0#12) := by
  unfold decode ifClear
  split
  · next h => split <;> simp_all
  split
  · next h => split <;> simp_all
  split
  · next h => split <;> simp_all
  split
  · next h => split <;> simp_all
  split
  · next h => split <;> simp_all
  · simp_all

/-- A word masked to its bits [31:m] is its opcode followed by zeros if and only if those fields say so. -/
theorem masked_eq_iff (v : Word) (mask pattern : Word) :
    v &&& mask = pattern ↔ ∀ j, j < 32 → (v.getLsbD j && mask.getLsbD j) = pattern.getLsbD j := by
  constructor
  · intro h j _
    rw [← h, BitVec.getLsbD_and]
  · intro h
    refine BitVec.eq_of_getLsbD_eq fun j hj => ?_
    rw [BitVec.getLsbD_and]; exact h j hj

/-- A field of a word equals a constant if and only if each of its bits does. -/
theorem field_eq_iff {n : Nat} (v : Word) (lo : Nat) (c : BitVec n) :
    v.extractLsb' lo n = c ↔ ∀ j, j < n → v.getLsbD (lo + j) = c.getLsbD j := by
  constructor
  · intro h j hj
    rw [← h, BitVec.getLsbD_extractLsb']; simp [hj]
  · intro h
    refine BitVec.eq_of_getLsbD_eq fun j hj => ?_
    rw [BitVec.getLsbD_extractLsb']; simp [hj, h j hj]

/-- What the row of SET_PIXEL selects (R84). -/
theorem rowSetPixel_selects (v : Word) :
    rowSetPixel.selects v = true ↔ opField v = 1#4 ∧ reservedP v = 0#11 := by
  rw [OpcodeRow.selects, rowSetPixel, beq_iff_eq, masked_eq_iff, opField, reservedP, field_eq_iff, field_eq_iff]
  constructor
  · intro h
    exact ⟨fun j hj => by have := h (28 + j) (by omega); interval_cases j <;> simpa using this,
      fun j hj => by have := h (17 + j) (by omega); interval_cases j <;> simpa using this⟩
  · rintro ⟨h1, h2⟩ j hj
    rcases Nat.lt_or_ge j 17 with h | h
    · interval_cases j <;> simp
    rcases Nat.lt_or_ge j 28 with h' | h'
    · have := h2 (j - 17) (by omega); interval_cases j <;> simpa using this
    · have := h1 (j - 28) (by omega); interval_cases j <;> simpa using this

/-- What a row of Format G or L selects (R84): the opcode, and the reserved bits [27:16] all 0. -/
theorem formatGL_selects (v : Word) (op : BitVec 4) :
    v &&& 0xFFFF0000#32 = op.setWidth 32 <<< 28 ↔ opField v = op ∧ reservedGL v = 0#12 := by
  rw [masked_eq_iff, opField, reservedGL, field_eq_iff, field_eq_iff]
  constructor
  · intro h
    exact ⟨fun j hj => by have := h (28 + j) (by omega); interval_cases j <;> simpa using this,
      fun j hj => by have := h (16 + j) (by omega); interval_cases j <;> simpa using this⟩
  · rintro ⟨h1, h2⟩ j hj
    rcases Nat.lt_or_ge j 16 with h | h
    · interval_cases j <;> simp
    rcases Nat.lt_or_ge j 28 with h' | h'
    · have := h2 (j - 16) (by omega); interval_cases j <;> simpa using this
    · have := h1 (j - 28) (by omega); interval_cases j <;> simpa using this

/-- What a row of Format N selects (R84): the opcode, and every other bit 0. -/
theorem formatN_selects (v : Word) (op : BitVec 4) :
    v &&& 0xFFFFFFFF#32 = op.setWidth 32 <<< 28 ↔ opField v = op ∧ reservedN v = 0#28 := by
  rw [masked_eq_iff, opField, reservedN, field_eq_iff, field_eq_iff]
  constructor
  · intro h
    exact ⟨fun j hj => by have := h (28 + j) (by omega); interval_cases j <;> simpa using this,
      fun j hj => by have := h (0 + j) (by omega); interval_cases j <;> simpa using this⟩
  · rintro ⟨h1, h2⟩ j hj
    rcases Nat.lt_or_ge j 28 with h' | h'
    · have := h2 j (by omega); interval_cases j <;> simpa using this
    · have := h1 (j - 28) (by omega); interval_cases j <;> simpa using this

theorem rowDrawGlyph_selects (v : Word) : rowDrawGlyph.selects v = true ↔ opField v = 2#4 ∧ reservedGL v = 0#12 :=
  beq_iff_eq.trans (formatGL_selects v 2#4)

theorem rowClear_selects (v : Word) : rowClear.selects v = true ↔ opField v = 3#4 ∧ reservedN v = 0#28 :=
  beq_iff_eq.trans (formatN_selects v 3#4)

theorem rowInit_selects (v : Word) : rowInit.selects v = true ↔ opField v = 4#4 ∧ reservedN v = 0#28 :=
  beq_iff_eq.trans (formatN_selects v 4#4)

theorem rowRender_selects (v : Word) : rowRender.selects v = true ↔ opField v = 5#4 ∧ reservedGL v = 0#12 :=
  beq_iff_eq.trans (formatGL_selects v 5#4)

/-- The decoder rejects exactly the ill-formed words. -/
theorem decode_error_of_not_wellFormed {v : Word} (h : wordWellFormed v = false) : ∃ e, decode v = .error e := by
  rw [decode_error_iff]
  simp only [wordWellFormed, opcodeTable, List.any_cons, List.any_nil, Bool.or_eq_false_iff] at h
  obtain ⟨h1, h2, h3, h4, h5, -⟩ := h
  rintro (h | h | h | h | h)
  · rw [(rowSetPixel_selects v).mpr h] at h1; cases h1
  · rw [(rowDrawGlyph_selects v).mpr h] at h2; cases h2
  · rw [(rowClear_selects v).mpr h] at h3; cases h3
  · rw [(rowInit_selects v).mpr h] at h4; cases h4
  · rw [(rowRender_selects v).mpr h] at h5; cases h5

end Sys2Proof
end

