-- ==== Sys2Proof/Laws/Flags.lean ====
section
/-! SUPPORT. What the two STATUS updates do to the STATUS fields (R27, R137, R172). -/

namespace Sys2Proof.Machine

/-- Bit `i` of STATUS after `raise Error`. -/
theorem statusRaise_bit (st : Word) (c : BitVec 4) (i : Nat) :
    (statusRaise st c).getLsbD i =
      if i = 1 then true
      else if 4 ≤ i ∧ i < 8 then c.getLsbD (i - 4)
      else st.getLsbD i := by
  by_cases h32 : i < 32
  · simp only [statusRaise, BitVec.getLsbD_or, BitVec.getLsbD_and, BitVec.getLsbD_shiftLeft, BitVec.getLsbD_setWidth]
    interval_cases i <;> simp
  · have h : 32 ≤ i := by omega
    rw [BitVec.getLsbD_of_ge _ _ h, BitVec.getLsbD_of_ge st _ h, if_neg (by omega), if_neg (by omega)]

@[simp] theorem statusInitDone_raise (st : Word) (c : BitVec 4) :
    statusInitDone (statusRaise st c) = statusInitDone st := by
  unfold statusInitDone; rw [statusRaise_bit]; rfl

@[simp] theorem statusFault_raise (st : Word) (c : BitVec 4) : statusFault (statusRaise st c) = true := by
  unfold statusFault; rw [statusRaise_bit]; rfl

@[simp] theorem statusErrCode_raise (st : Word) (c : BitVec 4) : statusErrCode (statusRaise st c) = c := by
  apply BitVec.eq_of_getLsbD_eq
  intro i hi
  simp [statusErrCode, hi, statusRaise_bit, show ¬ (4 + i = 1) by omega, show 4 + i < 8 by omega]

/-- Bit `i` of STATUS after INIT has completed. -/
theorem statusSetInitDone_bit (st : Word) (i : Nat) :
    (statusSetInitDone st).getLsbD i = if i = 0 then true else st.getLsbD i := by
  unfold statusSetInitDone
  rw [BitVec.getLsbD_or]
  by_cases h : i = 0
  · subst h; simp
  · have : (1#32).getLsbD i = false := by simp [BitVec.getLsbD_one, h]
    rw [this, if_neg h, Bool.or_false]

@[simp] theorem statusInitDone_setInitDone (st : Word) : statusInitDone (statusSetInitDone st) = true := by
  unfold statusInitDone; rw [statusSetInitDone_bit]; rfl

@[simp] theorem statusFault_setInitDone (st : Word) : statusFault (statusSetInitDone st) = statusFault st := by
  unfold statusFault; rw [statusSetInitDone_bit]; rfl

@[simp] theorem statusErrCode_setInitDone (st : Word) : statusErrCode (statusSetInitDone st) = statusErrCode st := by
  apply BitVec.eq_of_getLsbD_eq
  intro i hi
  simp [statusErrCode, hi, statusSetInitDone_bit]

end Sys2Proof.Machine
end

