-- ==== Sys2Proof/Laws/Memory.lean ====
section
/-! SUPPORT. The laws of a memory: read after write, the canonical form, and that the canonical form makes equal memories equal data. -/

namespace Sys2Proof.Machine

@[simp] theorem Memory.read_nil (a : Nat) : Memory.read [] a = 0#8 := rfl

theorem Memory.read_cons (k : Nat) (b : Byte) (rest : Memory) (a : Nat) :
    Memory.read ((k, b) :: rest) a = if k = a then b else Memory.read rest a := rfl

theorem Memory.read_erase (m : Memory) (a j : Nat) :
    (m.erase a).read j = if j = a then 0#8 else m.read j := by
  induction m with
  | nil => simp [Memory.erase]
  | cons c rest ih =>
    obtain ⟨k, b⟩ := c
    simp only [Memory.erase, List.filter_cons] at ih ⊢
    by_cases hk : k = a
    · subst hk
      by_cases hj : j = k
      · subst hj; simpa using ih
      · have : ¬ k = j := fun h => hj h.symm
        simpa [Memory.read_cons, hj, this] using ih
    · by_cases hj : j = a
      · subst hj; simpa [hk, Memory.read_cons] using ih
      · rw [if_neg hj] at ih
        simp [hk, Memory.read_cons, hj, ih]

theorem Memory.read_insert_ne (m : Memory) {a j : Nat} (v : Byte) (h : j ≠ a) :
    (m.insert a v).read j = m.read j := by
  induction m with
  | nil => simp [Memory.insert, Memory.read_cons, h.symm]
  | cons c rest ih =>
    obtain ⟨k, b⟩ := c
    simp only [Memory.insert]
    split
    · simp [Memory.read_cons, h.symm]
    · simp only [Memory.read_cons, ih]

theorem Memory.read_insert_same (m : Memory) (a : Nat) (v : Byte) (h : ∀ c ∈ m, c.1 ≠ a) :
    (m.insert a v).read a = v := by
  induction m with
  | nil => simp [Memory.insert, Memory.read_cons]
  | cons c rest ih =>
    obtain ⟨k, b⟩ := c
    have hk : k ≠ a := h (k, b) (by simp)
    simp only [Memory.insert]
    split
    · simp [Memory.read_cons]
    · rw [Memory.read_cons, if_neg hk]
      exact ih fun c hc => h c (by simp [hc])

theorem Memory.not_mem_erase (m : Memory) (a : Nat) : ∀ c ∈ m.erase a, c.1 ≠ a := by
  simp [Memory.erase]

/-- A byte reads as what was last written to it, and no other byte changes. -/
theorem Memory.read_write (m : Memory) (a : Nat) (v : Byte) (j : Nat) :
    (m.write a v).read j = if j = a then v else m.read j := by
  unfold Memory.write
  split
  · next h => rw [Memory.read_erase, h]; rfl
  · by_cases hj : j = a
    · subst hj
      simp [Memory.read_insert_same _ _ v (Memory.not_mem_erase m j)]
    · simp [Memory.read_insert_ne _ _ hj, Memory.read_erase, hj]

@[simp] theorem Memory.read_write_same (m : Memory) (a : Nat) (v : Byte) : (m.write a v).read a = v := by
  simp [Memory.read_write]

theorem Memory.read_write_ne (m : Memory) {a j : Nat} (v : Byte) (h : j ≠ a) : (m.write a v).read j = m.read j := by
  simp [Memory.read_write, h]

theorem Memory.read_tagged (l : List Nat) (v : Byte) (j : Nat) :
    Memory.read (l.map (fun i => (i, v))) j = if j ∈ l then v else 0#8 := by
  induction l with
  | nil => rfl
  | cons k rest ih =>
    rw [List.map_cons, Memory.read_cons, ih]
    by_cases h : k = j
    · simp [h]
    · have : j ≠ k := fun e => h e.symm
      simp [h, this]

/-- A filled memory holds the value at every address of its space. -/
theorem Memory.read_fill (n : Nat) (v : Byte) (j : Nat) :
    (Memory.fill n v).read j = if j < n then v else 0#8 := by
  unfold Memory.fill
  split
  · next h => subst h; simp [Memory.unlisted]
  · simp [Memory.read_tagged]

/-! ### The canonical form -/

theorem Memory.wf_cons (k : Nat) (b : Byte) (rest : Memory) :
    Memory.wf ((k, b) :: rest) = true ↔ b ≠ 0#8 ∧ (∀ c ∈ rest, k < c.1) ∧ Memory.wf rest = true := by
  simp [Memory.wf, Memory.unlisted, and_assoc]

theorem Memory.wf_erase {m : Memory} (h : m.wf = true) (a : Nat) : (m.erase a).wf = true := by
  induction m with
  | nil => rfl
  | cons c rest ih =>
    obtain ⟨k, b⟩ := c
    obtain ⟨hb, hlt, hrest⟩ := (Memory.wf_cons k b rest).mp h
    have ih := ih hrest
    simp only [Memory.erase, List.filter_cons] at ih ⊢
    split
    · exact (Memory.wf_cons _ _ _).mpr ⟨hb, fun c hc => hlt c (List.mem_filter.mp hc).1, ih⟩
    · exact ih

theorem Memory.mem_insert {m : Memory} {a : Nat} {v : Byte} {c : Host.Cell} (h : c ∈ m.insert a v) :
    c = (a, v) ∨ c ∈ m := by
  induction m with
  | nil => simpa [Memory.insert] using h
  | cons d rest ih =>
    obtain ⟨k, b⟩ := d
    simp only [Memory.insert] at h
    split at h
    · simpa using h
    · rcases List.mem_cons.mp h with h | h
      · exact .inr (by simp [h])
      · rcases ih h with h | h
        · exact .inl h
        · exact .inr (by simp [h])

theorem Memory.wf_insert {m : Memory} (h : m.wf = true) {a : Nat} {v : Byte} (hv : v ≠ 0#8)
    (ha : ∀ c ∈ m, c.1 ≠ a) : (m.insert a v).wf = true := by
  induction m with
  | nil => simp [Memory.insert, Memory.wf, Memory.unlisted, hv]
  | cons d rest ih =>
    obtain ⟨k, b⟩ := d
    obtain ⟨hb, hlt, hrest⟩ := (Memory.wf_cons k b rest).mp h
    have hk : k ≠ a := ha (k, b) (by simp)
    simp only [Memory.insert]
    split
    · next hak =>
      refine (Memory.wf_cons _ _ _).mpr ⟨hv, fun c hc => ?_, h⟩
      rcases List.mem_cons.mp hc with rfl | hc
      · exact hak
      · exact Nat.lt_trans hak (hlt c hc)
    · next hak =>
      refine (Memory.wf_cons _ _ _).mpr ⟨hb, fun c hc => ?_, ih hrest fun c hc => ha c (by simp [hc])⟩
      rcases Memory.mem_insert hc with rfl | hc
      · exact Nat.lt_of_le_of_ne (Nat.le_of_not_lt hak) hk
      · exact hlt c hc

/-- Writing a byte keeps the canonical form. -/
theorem Memory.wf_write {m : Memory} (h : m.wf = true) (a : Nat) (v : Byte) : (m.write a v).wf = true := by
  unfold Memory.write
  split
  · exact Memory.wf_erase h a
  · next hv => exact Memory.wf_insert (Memory.wf_erase h a) hv (Memory.not_mem_erase m a)

theorem Memory.wf_tagged {l : List Nat} (h : l.Pairwise (· < ·)) {v : Byte} (hv : v ≠ 0#8) :
    Memory.wf (l.map (fun i => (i, v))) = true := by
  induction l with
  | nil => rfl
  | cons k rest ih =>
    obtain ⟨hk, hrest⟩ := List.pairwise_cons.mp h
    refine (Memory.wf_cons _ _ _).mpr ⟨hv, fun c hc => ?_, ih hrest⟩
    obtain ⟨i, hi, rfl⟩ := List.mem_map.mp hc
    exact hk i hi

/-- A filled memory is canonical. -/
theorem Memory.wf_fill (n : Nat) (v : Byte) : (Memory.fill n v).wf = true := by
  unfold Memory.fill
  split
  · rfl
  · next hv => exact Memory.wf_tagged List.pairwise_lt_range hv

theorem Memory.below_write {n : Nat} {m : Memory} (h : m.below n = true) {a : Nat} (ha : a < n) (v : Byte) :
    (m.write a v).below n = true := by
  simp only [Memory.below, List.all_eq_true, decide_eq_true_eq] at h ⊢
  unfold Memory.write
  split
  · exact fun c hc => h c (List.mem_filter.mp hc).1
  · intro c hc
    rcases Memory.mem_insert hc with rfl | hc
    · exact ha
    · exact h c (List.mem_filter.mp hc).1

theorem Memory.below_fill (n : Nat) (v : Byte) : (Memory.fill n v).below n = true := by
  unfold Memory.fill Memory.below
  split
  · rfl
  · simp

theorem Memory.read_eq_zero_of_lt {m : Memory} {a : Nat} (h : ∀ c ∈ m, a < c.1) : m.read a = 0#8 := by
  induction m with
  | nil => rfl
  | cons d rest ih =>
    obtain ⟨k, b⟩ := d
    have hk : a < k := h (k, b) (by simp)
    rw [Memory.read_cons, if_neg (by omega)]
    exact ih fun c hc => h c (by simp [hc])

theorem Memory.read_head {k : Nat} {b : Byte} {rest : Memory} : Memory.read ((k, b) :: rest) k = b := by
  simp [Memory.read_cons]

/-- A byte at or above the bound of the address space reads as unlisted. -/
theorem Memory.read_above {n : Nat} {m : Memory} (h : m.below n = true) {a : Nat} (ha : n ≤ a) : m.read a = 0#8 := by
  induction m with
  | nil => rfl
  | cons d rest ih =>
    obtain ⟨k, b⟩ := d
    simp only [Memory.below, List.all_cons, Bool.and_eq_true, decide_eq_true_eq] at h ih
    rw [Memory.read_cons, if_neg (by omega)]
    exact ih h.2

/-- Two canonical memories that read the same are the same list. -/
theorem Memory.ext_of_wf {m n : Memory} (hm : m.wf = true) (hn : n.wf = true) (h : ∀ a, m.read a = n.read a) : m = n := by
  induction m generalizing n with
  | nil =>
    cases n with
    | nil => rfl
    | cons d rest =>
      obtain ⟨k, b⟩ := d
      have := h k
      rw [Memory.read_head] at this
      exact absurd this.symm ((Memory.wf_cons k b rest).mp hn).1
  | cons c ms ih =>
    obtain ⟨k, b⟩ := c
    obtain ⟨hb, hlt, hms⟩ := (Memory.wf_cons k b ms).mp hm
    cases n with
    | nil =>
      have := h k
      rw [Memory.read_head] at this
      exact absurd this hb
    | cons d ns =>
      obtain ⟨k', b'⟩ := d
      obtain ⟨hb', hlt', hns⟩ := (Memory.wf_cons k' b' ns).mp hn
      have hk : k = k' := by
        rcases Nat.lt_trichotomy k k' with hkk | hkk | hkk
        · have := h k
          rw [Memory.read_head, Memory.read_cons, if_neg (by omega),
            Memory.read_eq_zero_of_lt fun c hc => Nat.lt_trans hkk (hlt' c hc)] at this
          exact absurd this hb
        · exact hkk
        · have := h k'
          rw [Memory.read_head, Memory.read_cons, if_neg (by omega),
            Memory.read_eq_zero_of_lt fun c hc => Nat.lt_trans hkk (hlt c hc)] at this
          exact absurd this.symm hb'
      subst hk
      have hbb : b = b' := by have := h k; rwa [Memory.read_head, Memory.read_head] at this
      subst hbb
      refine congrArg _ (ih hms hns fun a => ?_)
      by_cases ha : k = a
      · subst ha
        rw [Memory.read_eq_zero_of_lt hlt, Memory.read_eq_zero_of_lt hlt']
      · have := h a
        rwa [Memory.read_cons, Memory.read_cons, if_neg ha, if_neg ha] at this

end Sys2Proof.Machine
end

