-- ==== Sys2Proof/Laws/State.lean ====
section
/-! SUPPORT. One lemma per field per named update of State, each true by unfolding the update: no later proof unfolds one. -/

namespace Sys2Proof.Machine

@[simp] theorem writeBit_fb (i b : Nat) (val : Bool) (s : State) : (writeBit i b val s).fb = s.fb.write i (if val then fbByte s i ||| (1#8 <<< b) else fbByte s i &&& ~~~(1#8 <<< b)) := rfl
@[simp] theorem writeBit_defd (i b : Nat) (val : Bool) (s : State) : (writeBit i b val s).defd = s.defd.write i (defByte s i ||| (1#8 <<< b)) := rfl
@[simp] theorem writeBit_status (i b : Nat) (val : Bool) (s : State) : (writeBit i b val s).status = s.status := rfl
@[simp] theorem writeBit_errCmd (i b : Nat) (val : Bool) (s : State) : (writeBit i b val s).errCmd = s.errCmd := rfl
@[simp] theorem writeBit_glyphLo (i b : Nat) (val : Bool) (s : State) : (writeBit i b val s).glyphLo = s.glyphLo := rfl
@[simp] theorem writeBit_glyphHi (i b : Nat) (val : Bool) (s : State) : (writeBit i b val s).glyphHi = s.glyphHi := rfl
@[simp] theorem writeBit_seq (i b : Nat) (val : Bool) (s : State) : (writeBit i b val s).seq = s.seq := rfl
@[simp] theorem writeBit_trace (i b : Nat) (val : Bool) (s : State) : (writeBit i b val s).trace = s.trace := rfl
@[simp] theorem writeBit_inputs (i b : Nat) (val : Bool) (s : State) : (writeBit i b val s).inputs = s.inputs := rfl
@[simp] theorem writeBit_hostReads (i b : Nat) (val : Bool) (s : State) : (writeBit i b val s).hostReads = s.hostReads := rfl

@[simp] theorem writeByte_fb (i : Nat) (v : Byte) (s : State) : (writeByte i v s).fb = s.fb.write i v := rfl
@[simp] theorem writeByte_defd (i : Nat) (v : Byte) (s : State) : (writeByte i v s).defd = s.defd.write i 0xFF#8 := rfl
@[simp] theorem writeByte_status (i : Nat) (v : Byte) (s : State) : (writeByte i v s).status = s.status := rfl
@[simp] theorem writeByte_errCmd (i : Nat) (v : Byte) (s : State) : (writeByte i v s).errCmd = s.errCmd := rfl
@[simp] theorem writeByte_glyphLo (i : Nat) (v : Byte) (s : State) : (writeByte i v s).glyphLo = s.glyphLo := rfl
@[simp] theorem writeByte_glyphHi (i : Nat) (v : Byte) (s : State) : (writeByte i v s).glyphHi = s.glyphHi := rfl
@[simp] theorem writeByte_seq (i : Nat) (v : Byte) (s : State) : (writeByte i v s).seq = s.seq := rfl
@[simp] theorem writeByte_trace (i : Nat) (v : Byte) (s : State) : (writeByte i v s).trace = s.trace := rfl
@[simp] theorem writeByte_inputs (i : Nat) (v : Byte) (s : State) : (writeByte i v s).inputs = s.inputs := rfl
@[simp] theorem writeByte_hostReads (i : Nat) (v : Byte) (s : State) : (writeByte i v s).hostReads = s.hostReads := rfl

@[simp] theorem fillFramebuffer_fb (v : Byte) (s : State) : (fillFramebuffer v s).fb = Memory.fill Geom.fbBytes v := by
  unfold fillFramebuffer; rfl
@[simp] theorem fillFramebuffer_defd (v : Byte) (s : State) : (fillFramebuffer v s).defd = Memory.fill Geom.fbBytes 0xFF#8 := by
  unfold fillFramebuffer; dsimp only
@[simp] theorem fillFramebuffer_status (v : Byte) (s : State) : (fillFramebuffer v s).status = s.status := rfl
@[simp] theorem fillFramebuffer_errCmd (v : Byte) (s : State) : (fillFramebuffer v s).errCmd = s.errCmd := rfl
@[simp] theorem fillFramebuffer_glyphLo (v : Byte) (s : State) : (fillFramebuffer v s).glyphLo = s.glyphLo := rfl
@[simp] theorem fillFramebuffer_glyphHi (v : Byte) (s : State) : (fillFramebuffer v s).glyphHi = s.glyphHi := rfl
@[simp] theorem fillFramebuffer_seq (v : Byte) (s : State) : (fillFramebuffer v s).seq = s.seq := rfl
@[simp] theorem fillFramebuffer_trace (v : Byte) (s : State) : (fillFramebuffer v s).trace = s.trace := rfl
@[simp] theorem fillFramebuffer_inputs (v : Byte) (s : State) : (fillFramebuffer v s).inputs = s.inputs := rfl
@[simp] theorem fillFramebuffer_hostReads (v : Byte) (s : State) : (fillFramebuffer v s).hostReads = s.hostReads := rfl

@[simp] theorem raiseError_fb (c : ErrCode) (v : Word) (s : State) : (raiseError c v s).fb = s.fb := rfl
@[simp] theorem raiseError_defd (c : ErrCode) (v : Word) (s : State) : (raiseError c v s).defd = s.defd := rfl
@[simp] theorem raiseError_status (c : ErrCode) (v : Word) (s : State) : (raiseError c v s).status = statusRaise s.status c.code := rfl
@[simp] theorem raiseError_errCmd (c : ErrCode) (v : Word) (s : State) : (raiseError c v s).errCmd = v := rfl
@[simp] theorem raiseError_glyphLo (c : ErrCode) (v : Word) (s : State) : (raiseError c v s).glyphLo = s.glyphLo := rfl
@[simp] theorem raiseError_glyphHi (c : ErrCode) (v : Word) (s : State) : (raiseError c v s).glyphHi = s.glyphHi := rfl
@[simp] theorem raiseError_seq (c : ErrCode) (v : Word) (s : State) : (raiseError c v s).seq = .idle := rfl
@[simp] theorem raiseError_trace (c : ErrCode) (v : Word) (s : State) : (raiseError c v s).trace = s.trace := rfl
@[simp] theorem raiseError_inputs (c : ErrCode) (v : Word) (s : State) : (raiseError c v s).inputs = s.inputs := rfl
@[simp] theorem raiseError_hostReads (c : ErrCode) (v : Word) (s : State) : (raiseError c v s).hostReads = s.hostReads := rfl

@[simp] theorem applyReset_fb (s : State) : (applyReset s).fb = [] := rfl
@[simp] theorem applyReset_defd (s : State) : (applyReset s).defd = [] := rfl
@[simp] theorem applyReset_status (s : State) : (applyReset s).status = 0#32 := rfl
@[simp] theorem applyReset_errCmd (s : State) : (applyReset s).errCmd = 0#32 := rfl
@[simp] theorem applyReset_glyphLo (s : State) : (applyReset s).glyphLo = 0#32 := rfl
@[simp] theorem applyReset_glyphHi (s : State) : (applyReset s).glyphHi = 0#32 := rfl
@[simp] theorem applyReset_seq (s : State) : (applyReset s).seq = .idle := rfl
@[simp] theorem applyReset_trace (s : State) : (applyReset s).trace = s.trace := rfl
@[simp] theorem applyReset_inputs (s : State) : (applyReset s).inputs = s.inputs := rfl
@[simp] theorem applyReset_hostReads (s : State) : (applyReset s).hostReads = s.hostReads := rfl

@[simp] theorem xfer_fb (bytes : List Byte) (s : State) : (xfer bytes s).fb = s.fb := rfl
@[simp] theorem xfer_defd (bytes : List Byte) (s : State) : (xfer bytes s).defd = s.defd := rfl
@[simp] theorem xfer_status (bytes : List Byte) (s : State) : (xfer bytes s).status = s.status := rfl
@[simp] theorem xfer_errCmd (bytes : List Byte) (s : State) : (xfer bytes s).errCmd = s.errCmd := rfl
@[simp] theorem xfer_glyphLo (bytes : List Byte) (s : State) : (xfer bytes s).glyphLo = s.glyphLo := rfl
@[simp] theorem xfer_glyphHi (bytes : List Byte) (s : State) : (xfer bytes s).glyphHi = s.glyphHi := rfl
@[simp] theorem xfer_seq (bytes : List Byte) (s : State) : (xfer bytes s).seq = s.seq := rfl
@[simp] theorem xfer_trace (bytes : List Byte) (s : State) : (xfer bytes s).trace = s.trace ++ [⟨0x3C#7, bytes⟩] := rfl
@[simp] theorem xfer_inputs (bytes : List Byte) (s : State) : (xfer bytes s).inputs = s.inputs := rfl
@[simp] theorem xfer_hostReads (bytes : List Byte) (s : State) : (xfer bytes s).hostReads = s.hostReads := rfl

@[simp] theorem sendCmd_fb (c : Byte) (s : State) : (sendCmd c s).fb = s.fb := rfl
@[simp] theorem sendCmd_defd (c : Byte) (s : State) : (sendCmd c s).defd = s.defd := rfl
@[simp] theorem sendCmd_status (c : Byte) (s : State) : (sendCmd c s).status = s.status := rfl
@[simp] theorem sendCmd_errCmd (c : Byte) (s : State) : (sendCmd c s).errCmd = s.errCmd := rfl
@[simp] theorem sendCmd_glyphLo (c : Byte) (s : State) : (sendCmd c s).glyphLo = s.glyphLo := rfl
@[simp] theorem sendCmd_glyphHi (c : Byte) (s : State) : (sendCmd c s).glyphHi = s.glyphHi := rfl
@[simp] theorem sendCmd_seq (c : Byte) (s : State) : (sendCmd c s).seq = s.seq := rfl
@[simp] theorem sendCmd_trace (c : Byte) (s : State) : (sendCmd c s).trace = s.trace ++ [⟨0x3C#7, [0x80#8, c]⟩] := rfl
@[simp] theorem sendCmd_inputs (c : Byte) (s : State) : (sendCmd c s).inputs = s.inputs := rfl
@[simp] theorem sendCmd_hostReads (c : Byte) (s : State) : (sendCmd c s).hostReads = s.hostReads := rfl

@[simp] theorem sendData_fb (d : List Byte) (s : State) : (sendData d s).fb = s.fb := rfl
@[simp] theorem sendData_defd (d : List Byte) (s : State) : (sendData d s).defd = s.defd := rfl
@[simp] theorem sendData_status (d : List Byte) (s : State) : (sendData d s).status = s.status := rfl
@[simp] theorem sendData_errCmd (d : List Byte) (s : State) : (sendData d s).errCmd = s.errCmd := rfl
@[simp] theorem sendData_glyphLo (d : List Byte) (s : State) : (sendData d s).glyphLo = s.glyphLo := rfl
@[simp] theorem sendData_glyphHi (d : List Byte) (s : State) : (sendData d s).glyphHi = s.glyphHi := rfl
@[simp] theorem sendData_seq (d : List Byte) (s : State) : (sendData d s).seq = s.seq := rfl
@[simp] theorem sendData_trace (d : List Byte) (s : State) : (sendData d s).trace = s.trace ++ [⟨0x3C#7, 0x40#8 :: d⟩] := rfl
@[simp] theorem sendData_inputs (d : List Byte) (s : State) : (sendData d s).inputs = s.inputs := rfl
@[simp] theorem sendData_hostReads (d : List Byte) (s : State) : (sendData d s).hostReads = s.hostReads := rfl

@[simp] theorem answerRead_fb (v : Word) (s : State) : (answerRead v s).fb = s.fb := rfl
@[simp] theorem answerRead_defd (v : Word) (s : State) : (answerRead v s).defd = s.defd := rfl
@[simp] theorem answerRead_status (v : Word) (s : State) : (answerRead v s).status = s.status := rfl
@[simp] theorem answerRead_errCmd (v : Word) (s : State) : (answerRead v s).errCmd = s.errCmd := rfl
@[simp] theorem answerRead_glyphLo (v : Word) (s : State) : (answerRead v s).glyphLo = s.glyphLo := rfl
@[simp] theorem answerRead_glyphHi (v : Word) (s : State) : (answerRead v s).glyphHi = s.glyphHi := rfl
@[simp] theorem answerRead_seq (v : Word) (s : State) : (answerRead v s).seq = s.seq := rfl
@[simp] theorem answerRead_trace (v : Word) (s : State) : (answerRead v s).trace = s.trace := rfl
@[simp] theorem answerRead_inputs (v : Word) (s : State) : (answerRead v s).inputs = s.inputs := rfl
@[simp] theorem answerRead_hostReads (v : Word) (s : State) : (answerRead v s).hostReads = s.hostReads ++ [v] := rfl

/-- The fields `writeBytes` cannot change. -/
theorem writeBytes_rest (base : Nat) (l : List Byte) (s : State) :
    writeBytes base l s = { s with fb := (writeBytes base l s).fb, defd := (writeBytes base l s).defd } := by
  induction l generalizing base s with
  | nil => rfl
  | cons v rest ih => exact ih (base + 1) (writeByte base v s)

@[simp] theorem writeBytes_status (base : Nat) (l : List Byte) (s : State) : (writeBytes base l s).status = s.status := by
  rw [writeBytes_rest]
@[simp] theorem writeBytes_errCmd (base : Nat) (l : List Byte) (s : State) : (writeBytes base l s).errCmd = s.errCmd := by
  rw [writeBytes_rest]
@[simp] theorem writeBytes_glyphLo (base : Nat) (l : List Byte) (s : State) : (writeBytes base l s).glyphLo = s.glyphLo := by
  rw [writeBytes_rest]
@[simp] theorem writeBytes_glyphHi (base : Nat) (l : List Byte) (s : State) : (writeBytes base l s).glyphHi = s.glyphHi := by
  rw [writeBytes_rest]
@[simp] theorem writeBytes_seq (base : Nat) (l : List Byte) (s : State) : (writeBytes base l s).seq = s.seq := by
  rw [writeBytes_rest]
@[simp] theorem writeBytes_trace (base : Nat) (l : List Byte) (s : State) : (writeBytes base l s).trace = s.trace := by
  rw [writeBytes_rest]
@[simp] theorem writeBytes_inputs (base : Nat) (l : List Byte) (s : State) : (writeBytes base l s).inputs = s.inputs := by
  rw [writeBytes_rest]
@[simp] theorem writeBytes_hostReads (base : Nat) (l : List Byte) (s : State) : (writeBytes base l s).hostReads = s.hostReads := by
  rw [writeBytes_rest]

end Sys2Proof.Machine
end

