-- ==== Sys2Proof/Laws/Ops.lean ====
section
/-! SUPPORT. What each shared operation can do, said once: framebuffer reads and writes, the issue check, `raise Error`. -/

namespace Sys2Proof.Machine

/-! ### The issue check and the error flags -/

theorem issue_faulted {s : State} (h : faulted s = true) (k : State → Outcome) : issue s k = .next s := by
  simp [issue, h]

theorem issue_ok {s : State} (h : faulted s = false) (k : State → Outcome) : issue s k = k s := by
  simp [issue, h]

@[simp] theorem faulted_raiseError (c : ErrCode) (v : Word) (s : State) : faulted (raiseError c v s) = true := by
  simp [faulted]

@[simp] theorem initDone_raiseError (c : ErrCode) (v : Word) (s : State) :
    initDone (raiseError c v s) = initDone s := by
  simp [initDone]

/-! ### Framebuffer bytes -/

theorem fbByte_writeBit (i b : Nat) (val : Bool) (s : State) (j : Nat) :
    fbByte (writeBit i b val s) j =
      if j = i then (if val then fbByte s i ||| (1#8 <<< b) else fbByte s i &&& ~~~(1#8 <<< b)) else fbByte s j := by
  rw [fbByte, writeBit_fb, Memory.read_write]; rfl

theorem defByte_writeBit (i b : Nat) (val : Bool) (s : State) (j : Nat) :
    defByte (writeBit i b val s) j = if j = i then defByte s i ||| (1#8 <<< b) else defByte s j := by
  rw [defByte, writeBit_defd, Memory.read_write]; rfl

theorem fbByte_writeByte (i : Nat) (v : Byte) (s : State) (j : Nat) :
    fbByte (writeByte i v s) j = if j = i then v else fbByte s j := by
  rw [fbByte, writeByte_fb, Memory.read_write]; rfl

theorem defByte_writeByte (i : Nat) (v : Byte) (s : State) (j : Nat) :
    defByte (writeByte i v s) j = if j = i then 0xFF#8 else defByte s j := by
  rw [defByte, writeByte_defd, Memory.read_write]; rfl

theorem fbByte_writeBytes (base : Nat) (l : List Byte) (s : State) (j : Nat) :
    fbByte (writeBytes base l s) j =
      if base ≤ j ∧ j < base + l.length then l.getD (j - base) 0#8 else fbByte s j := by
  induction l generalizing base s with
  | nil => simp [writeBytes, show ¬ (base ≤ j ∧ j < base) by omega]
  | cons v rest ih =>
    rw [writeBytes, ih, fbByte_writeByte, List.length_cons]
    rcases Nat.lt_trichotomy j base with h | h | h
    · simp [show ¬ (base + 1 ≤ j) by omega, show ¬ (base ≤ j) by omega, show j ≠ base by omega]
    · subst h; simp
    · obtain ⟨d, rfl⟩ : ∃ d, j = base + 1 + d := ⟨j - (base + 1), by omega⟩
      have e : base + 1 + d - base = d + 1 := by omega
      simp only [e, List.getD_cons_succ]
      by_cases hd : d < rest.length
      · simp [hd, show base + 1 + d < base + (rest.length + 1) by omega, show base ≤ base + 1 + d by omega]
      · simp [hd, show ¬ base + 1 + d < base + (rest.length + 1) by omega, show base + 1 + d ≠ base by omega]

theorem defByte_writeBytes (base : Nat) (l : List Byte) (s : State) (j : Nat) :
    defByte (writeBytes base l s) j =
      if base ≤ j ∧ j < base + l.length then 0xFF#8 else defByte s j := by
  induction l generalizing base s with
  | nil => simp [writeBytes, show ¬ (base ≤ j ∧ j < base) by omega]
  | cons v rest ih =>
    rw [writeBytes, ih, defByte_writeByte, List.length_cons]
    by_cases h1 : base + 1 ≤ j ∧ j < base + 1 + rest.length
    · rw [if_pos h1, if_pos (by omega)]
    · rw [if_neg h1]
      by_cases h2 : j = base
      · rw [if_pos h2, if_pos (by omega)]
      · rw [if_neg h2, if_neg (by omega)]

theorem fbByte_fillFramebuffer (v : Byte) (s : State) (j : Nat) :
    fbByte (fillFramebuffer v s) j = if j < Geom.fbBytes then v else 0#8 := by
  rw [fbByte, fillFramebuffer_fb, Memory.read_fill]

theorem defByte_fillFramebuffer (v : Byte) (s : State) (j : Nat) :
    defByte (fillFramebuffer v s) j = if j < Geom.fbBytes then 0xFF#8 else 0#8 := by
  rw [defByte, fillFramebuffer_defd, Memory.read_fill]

/-! ### Definedness -/

theorem byteDefined_iff (s : State) (i : Nat) : byteDefined s i = true ↔ defByte s i = 0xFF#8 := by
  simp [byteDefined]

/-- Nothing is undefined in the range. -/
theorem firstUndefined_eq_none (s : State) (lo n : Nat) :
    firstUndefined s lo n = none ↔ ∀ k, k < n → byteDefined s (lo + k) = true := by
  simp [firstUndefined]

/-- The answer is the lowest index of the range with an undefined bit. -/
theorem firstUndefined_eq_some {s : State} {lo n i : Nat} (h : firstUndefined s lo n = some i) :
    lo ≤ i ∧ i < lo + n ∧ byteDefined s i = false ∧ ∀ j, lo ≤ j → j < i → byteDefined s j = true := by
  obtain ⟨hi, pre, post, hsplit, hpre⟩ := List.find?_eq_some_iff_append.mp h
  have hmem : i ∈ (List.range n).map (lo + ·) := hsplit ▸ by simp
  obtain ⟨k, hk, rfl⟩ := List.mem_map.mp hmem
  have hkn := List.mem_range.mp hk
  refine ⟨by omega, by omega, by simpa using hi, fun j hj hlt => ?_⟩
  have hsorted : ((List.range n).map (lo + ·)).Pairwise (· < ·) :=
    List.pairwise_map.mpr (List.pairwise_lt_range.imp fun h => by omega)
  have hjmem : j ∈ (List.range n).map (lo + ·) :=
    List.mem_map.mpr ⟨j - lo, List.mem_range.mpr (by omega), by omega⟩
  rw [hsplit] at hjmem hsorted
  rcases List.mem_append.mp hjmem with hj' | hj'
  · simpa using hpre j hj'
  · rcases List.mem_cons.mp hj' with rfl | hj'
    · omega
    · have := (List.pairwise_cons.mp (List.pairwise_append.mp hsorted).2.1).1 j hj'
      omega

/-- The saved search changes no answer. -/
theorem frameUndefined_eq (s : State) : frameUndefined s = firstUndefined s 0 Geom.fbBytes := by
  unfold frameUndefined
  split
  · next h =>
    refine ((firstUndefined_eq_none s 0 Geom.fbBytes).mpr fun k hk => ?_).symm
    rw [byteDefined_iff, defByte, h, Memory.read_fill, if_pos (by omega)]
  · rfl

theorem frameUndefined_eq_none (s : State) : frameUndefined s = none ↔ allDefined s := by
  rw [frameUndefined_eq, firstUndefined_eq_none]
  simp [allDefined]

/-! ### Operands -/

theorem byteIdx_lt {x y : BitVec 8} (hx : x.toNat < 128) (hy : y.toNat < 64) : byteIdx x y < 1024 := by
  simp only [byteIdx, Geom.pageH, Geom.W]; omega

theorem pixelLegal_iff (x y : BitVec 8) : pixelLegal x y = true ↔ x.toNat < 128 ∧ y.toNat < 64 :=
  decide_eq_true_iff

theorem originLegal_iff (x y : BitVec 8) :
    originLegal x y = true ↔ y.toNat % 8 = 0 ∧ y.toNat < 64 ∧ x.toNat + 8 ≤ 128 :=
  decide_eq_true_iff

@[simp] theorem glyph_length (s : State) : (glyph s).length = 8 := by simp [glyph]

theorem glyph_getD (s : State) {k : Nat} (hk : k < 8) : (glyph s).getD k 0#8 = glyphByte s k := by
  simp [glyph, hk]

@[simp] theorem pageBytes_length (s : State) (p : Nat) : (pageBytes s p).length = 128 := by simp [pageBytes]

/-- The bytes of a page depend on FB alone. -/
theorem pageBytes_congr {s t : State} (h : t.fb = s.fb) (p : Nat) : pageBytes t p = pageBytes s p := by
  simp [pageBytes, fbByte, h]

end Sys2Proof.Machine
end

