-- ==== Sys2Proof/Laws/HostPort.lean ====
section
/-! SUPPORT. The host register space: which offsets are registers, which accesses are admitted, what a window read answers. -/

namespace Sys2Proof.Machine

/-- No register lies in the window. -/
theorem regAt_window {a : Offset} (h : 0x400 ≤ a.toNat) : regAt a = none := by
  unfold regAt
  split_ifs with h0 h1 h2 h3 h4 h5 h6
  all_goals first | rfl | (subst_vars; simp at h)

/-- Every aligned offset below 0x01C is a register (R26). -/
theorem regAt_register {a : Offset} (h : a.toNat < 0x01C) (h4 : a.toNat % 4 = 0) : regAt a ≠ none := by
  have ha : a = BitVec.ofNat 11 a.toNat := by simp
  generalize a.toNat = n at h h4 ha
  subst ha
  obtain ⟨m, rfl⟩ : ∃ m, n = 4 * m := ⟨n / 4, by omega⟩
  have hm : m < 7 := by omega
  interval_cases m <;> decide

/-- The table of R55. -/
theorem admitted_iff (a : Offset) (n : Nat) : admitted a n = true ↔
    (a.toNat < 0x01C ∧ n = 4 ∧ a.toNat % 4 = 0) ∨
    (0x400 ≤ a.toNat ∧ (n = 1 ∨ n = 2 ∨ n = 4) ∧ a.toNat % n = 0) := by
  unfold admitted winBase
  split
  · rw [decide_eq_true_iff]; omega
  · split
    · rw [decide_eq_true_iff]; omega
    · simp; omega

/-- A legal register read answers the register's value (R59). -/
theorem hostAccess_read_register {a : Offset} {r : Reg} (ha : admitted a 4 = true) (hr : regAt a = some r) (s : State) :
    hostAccess (.read a 4) s = .next (answerRead (regRead r s) s) := by
  simp only [hostAccess, ha, hr, if_true]

/-- A legal register write is the register's (R56). -/
theorem hostAccess_write_register {a : Offset} {r : Reg} (ha : admitted a 4 = true) (hr : regAt a = some r) (v : Word)
    (s : State) : hostAccess (.write a 4 v) s = regWrite r v s := by
  simp only [hostAccess, ha, hr, if_true]

/-- A legal window write has no effect (R56). -/
theorem hostAccess_write_window {a : Offset} {n : Nat} (ha : admitted a n = true) (h : 0x400 ≤ a.toNat) (v : Word)
    (s : State) : hostAccess (.write a n v) s = .next s := by
  simp only [hostAccess, ha, regAt_window h, if_true]

/-- A window read at index `i` reads from `i` on (R57). -/
theorem hostAccess_window {s : State} {i n : Nat} (hn : n = 1 ∨ n = 2 ∨ n = 4) (hi : i % n = 0) (hlt : i < 1024) :
    hostAccess (.read (BitVec.ofNat 11 (0x400 + i)) n) s = windowRead i n s := by
  have e : (BitVec.ofNat 11 (0x400 + i)).toNat = 0x400 + i := by simp; omega
  have ha : admitted (BitVec.ofNat 11 (0x400 + i)) n = true := by
    rw [admitted_iff, e]
    refine .inr ⟨by omega, hn, ?_⟩
    rcases hn with rfl | rfl | rfl <;> omega
  have hr : regAt (BitVec.ofNat 11 (0x400 + i)) = none := regAt_window (by omega)
  have hw : (BitVec.ofNat 11 (0x400 + i)).toNat - winBase = i := by rw [e, winBase]; omega
  simp only [hostAccess, ha, hr, if_true, hw]

/-- A window read of defined bytes answers their little-endian word. -/
theorem windowRead_defined {s : State} {i n : Nat} (h : ∀ k, k < n → defByte s (i + k) = 0xFF#8) :
    windowRead i n s = .next (answerRead (leWord ((List.range n).map (fun k => fbByte s (i + k)))) s) := by
  have hnone : firstUndefined s i n = none :=
    (firstUndefined_eq_none s i n).mpr fun k hk => (byteDefined_iff s _).mpr (h k hk)
  simp only [windowRead, hnone]

/-- A window read stops at its lowest undefined byte only. -/
theorem windowRead_fault {i n : Nat} {s : State} {f : Fault} (h : windowRead i n s = .fault f) :
    ∃ j, f = .uninit j ∧ firstUndefined s i n = some j := by
  unfold windowRead at h
  split at h
  · next j hj => cases h; exact ⟨j, rfl, hj⟩
  · cases h

end Sys2Proof.Machine
end

