-- ==== Sys2Proof/Laws/Step.lean ====
section
/-! SUPPORT. What a command, an acceptance, a Host access and a step can do, said once each. -/

namespace Sys2Proof.Machine

/-! ### Commands -/

/-- A SET_PIXEL that answers a next state was ignored, rejected, or wrote its one bit. -/
theorem execSetPixel_cases {x y : BitVec 8} {val : Bool} {s t : State} (h : execSetPixel x y val s = .next t) :
    (faulted s = true ∧ t = s) ∨
    (faulted s = false ∧ pixelLegal x y = false ∧ t = raiseError .geometry (encode (.setPixel x y val)) s) ∨
    (faulted s = false ∧ pixelLegal x y = true ∧ t = writeBit (byteIdx x y) (bitIdx y) val s) := by
  unfold execSetPixel issue at h
  split at h
  · next hf => exact .inl ⟨hf, by cases h; rfl⟩
  · next hf =>
    have hf : faulted s = false := by simpa using hf
    split at h
    · next hl => exact .inr (.inr ⟨hf, hl, by cases h; rfl⟩)
    · next hl => exact .inr (.inl ⟨hf, by simpa using hl, by cases h; rfl⟩)

/-- A DRAW_GLYPH that answers a next state was ignored, rejected, or copied the glyph. -/
theorem execDrawGlyph_cases {x y : BitVec 8} {s t : State} (h : execDrawGlyph x y s = .next t) :
    (faulted s = true ∧ t = s) ∨
    (faulted s = false ∧ originLegal x y = false ∧ t = raiseError .geometry (encode (.drawGlyph x y)) s) ∨
    (faulted s = false ∧ originLegal x y = true ∧ t = writeBytes (byteIdx x y) (glyph s) s) := by
  unfold execDrawGlyph issue at h
  split at h
  · next hf => exact .inl ⟨hf, by cases h; rfl⟩
  · next hf =>
    have hf : faulted s = false := by simpa using hf
    split at h
    · next hl => exact .inr (.inr ⟨hf, hl, by cases h; rfl⟩)
    · next hl => exact .inr (.inl ⟨hf, by simpa using hl, by cases h; rfl⟩)

/-- A CLEAR that answers a next state was ignored or cleared the framebuffer. -/
theorem execClear_cases {s t : State} (h : execClear s = .next t) :
    (faulted s = true ∧ t = s) ∨ (faulted s = false ∧ t = fillFramebuffer 0#8 s) := by
  unfold execClear issue at h
  split at h
  · next hf => exact .inl ⟨hf, by cases h; rfl⟩
  · next hf => exact .inr ⟨by simpa using hf, by injection h with h; exact h.symm⟩

/-- An INIT that answers a next state was ignored or stands before its first transfer. -/
theorem execInit_cases {s t : State} (h : execInit s = .next t) :
    (faulted s = true ∧ t = s) ∨ (faulted s = false ∧ t = { s with seq := .init 0 }) := by
  unfold execInit issue at h
  split at h
  · next hf => exact .inl ⟨hf, by cases h; rfl⟩
  · next hf => exact .inr ⟨by simpa using hf, by cases h; rfl⟩

/-- A RENDER that answers a next state was ignored, rejected, or stands before its first transfer with every bit defined. -/
theorem execRender_cases {len : BitVec 16} {s t : State} (h : execRender len s = .next t) :
    (faulted s = true ∧ t = s) ∨
    (faulted s = false ∧ initDone s = false ∧ t = raiseError .notInit (encode (.render len)) s) ∨
    (faulted s = false ∧ initDone s = true ∧ len.toNat ≠ 1024 ∧ t = raiseError .size (encode (.render len)) s) ∨
    (faulted s = false ∧ initDone s = true ∧ len.toNat = 1024 ∧ allDefined s ∧ t = { s with seq := .render 0 0 }) := by
  unfold execRender issue at h
  split at h
  · next hf => exact .inl ⟨hf, by cases h; rfl⟩
  · next hf =>
    have hf : faulted s = false := by simpa using hf
    dsimp only at h
    split at h
    · next hi => exact .inr (.inl ⟨hf, by simpa using hi, by cases h; rfl⟩)
    · next hi =>
      have hi : initDone s = true := by simpa using hi
      split at h
      · next hl => exact .inr (.inr (.inl ⟨hf, hi, hl, by cases h; rfl⟩))
      · next hl =>
        split at h
        · cases h
        · next hu =>
          exact .inr (.inr (.inr ⟨hf, hi, Decidable.not_not.mp hl, (frameUndefined_eq_none s).mp hu, by cases h; rfl⟩))

/-- What any command that answers a next state has done. -/
inductive CommandEffect (i : Instr) (s : State) : State → Prop
  /-- Ignored in the fault state. -/
  | ignored (h : faulted s = true) : CommandEffect i s s
  /-- Rejected with an architectural error. -/
  | rejected (h : faulted s = false) (c : ErrCode) : CommandEffect i s (raiseError c (encode i) s)
  /-- One pixel written. -/
  | pixel (h : faulted s = false) (x y : BitVec 8) (val : Bool) (hl : pixelLegal x y = true) :
      CommandEffect i s (writeBit (byteIdx x y) (bitIdx y) val s)
  /-- One glyph written. -/
  | glyph (h : faulted s = false) (x y : BitVec 8) (hl : originLegal x y = true) :
      CommandEffect i s (writeBytes (byteIdx x y) (Machine.glyph s) s)
  /-- The framebuffer cleared. -/
  | cleared (h : faulted s = false) : CommandEffect i s (fillFramebuffer 0#8 s)
  /-- INIT started. -/
  | initStarted (h : faulted s = false) : CommandEffect i s { s with seq := .init 0 }
  /-- RENDER started. -/
  | renderStarted (h : faulted s = false) (hi : initDone s = true) (hd : allDefined s) :
      CommandEffect i s { s with seq := .render 0 0 }

theorem exec_effect {i : Instr} {s t : State} (h : exec i s = .next t) : CommandEffect i s t := by
  cases i with
  | setPixel x y val =>
    rcases execSetPixel_cases h with ⟨hf, rfl⟩ | ⟨hf, -, rfl⟩ | ⟨hf, hl, rfl⟩
    · exact .ignored hf
    · exact .rejected hf _
    · exact .pixel hf x y val hl
  | drawGlyph x y =>
    rcases execDrawGlyph_cases h with ⟨hf, rfl⟩ | ⟨hf, -, rfl⟩ | ⟨hf, hl, rfl⟩
    · exact .ignored hf
    · exact .rejected hf _
    · exact .glyph hf x y hl
  | clear =>
    rcases execClear_cases h with ⟨hf, rfl⟩ | ⟨hf, rfl⟩
    · exact .ignored hf
    · exact .cleared hf
  | init =>
    rcases execInit_cases h with ⟨hf, rfl⟩ | ⟨hf, rfl⟩
    · exact .ignored hf
    · exact .initStarted hf
  | render len =>
    rcases execRender_cases h with ⟨hf, rfl⟩ | ⟨hf, -, rfl⟩ | ⟨hf, -, -, rfl⟩ | ⟨hf, hi, -, hd, rfl⟩
    · exact .ignored hf
    · exact .rejected hf _
    · exact .rejected hf _
    · exact .renderStarted hf hi hd

/-! ### Acceptances -/

/-- One page transfer appends one transfer to TRACE and changes nothing else. -/
theorem sendPage_eq (p : Fin 8) (j : Fin 4) (s : State) :
    ∃ bytes, sendPage p j s = xfer bytes s ∧ transferLegal ⟨Bus.addr, bytes⟩ := by
  unfold sendPage
  split
  · exact ⟨_, rfl, rfl, .inl ⟨pageCmd p, rfl⟩⟩
  · exact ⟨_, rfl, rfl, .inl ⟨colLoCmd, rfl⟩⟩
  · exact ⟨_, rfl, rfl, .inl ⟨colHiCmd, rfl⟩⟩
  · exact ⟨_, rfl, rfl, .inr ⟨pageBytes s p.val, pageBytes_length s p.val, rfl⟩⟩

theorem sendInit_eq (k : Fin 22) (s : State) :
    sendInit k s = { s with
      trace := s.trace ++ [cmdTransfer ((initSeq Config.initOps).get k)]
      status := if k.val = 21 then statusSetInitDone s.status else s.status
      seq := initNext k } := rfl

/-- An acceptance with a command in progress completes exactly one transfer, of a legal shape, and can change nothing
beside TRACE, `seq` and, at the last init transfer, INIT_DONE. -/
theorem acceptTransfer_cases (s : State) :
    (s.seq = .idle ∧ acceptTransfer s = s) ∨
    (∃ k bytes, s.seq = .init k ∧ transferLegal ⟨Bus.addr, bytes⟩ ∧
      acceptTransfer s = { xfer bytes s with
        status := if k.val = 21 then statusSetInitDone s.status else s.status, seq := initNext k }) ∨
    (∃ p j bytes, s.seq = .render p j ∧ transferLegal ⟨Bus.addr, bytes⟩ ∧
      acceptTransfer s = { xfer bytes s with seq := renderNext p j }) := by
  unfold acceptTransfer
  split
  · next h => exact .inl ⟨h, rfl⟩
  · next k h => exact .inr (.inl ⟨k, _, h, ⟨rfl, .inl ⟨_, rfl⟩⟩, rfl⟩)
  · next p j h =>
    obtain ⟨bytes, he, hl⟩ := sendPage_eq p j s
    exact .inr (.inr ⟨p, j, bytes, h, hl, by rw [sendRender, he]⟩)

/-! ### Host accesses -/

/-- What a Host access that answers a next state has done. -/
inductive AccessEffect (acc : Access) (s : State) : State → Prop
  /-- A read returned a value, or a write had no effect. -/
  | quiet (l : List Word) : AccessEffect acc s { s with hostReads := s.hostReads ++ l }
  | glyphLo (v : Word) : AccessEffect acc s { s with glyphLo := v }
  | glyphHi (v : Word) : AccessEffect acc s { s with glyphHi := v }
  /-- A command word that is no command. -/
  | illegal (h : faulted s = false) (v : Word) : AccessEffect acc s (raiseError .illegalCmd v s)
  /-- A command. -/
  | command (i : Instr) {t : State} (h : CommandEffect i s t) : AccessEffect acc s t

theorem AccessEffect.same (acc : Access) (s : State) : AccessEffect acc s s := by
  have h := AccessEffect.quiet (acc := acc) (s := s) []
  rwa [List.append_nil] at h

/-- A Host access is no move: the list of coming moves stays. -/
theorem AccessEffect.inputs {acc : Access} {s t : State} (h : AccessEffect acc s t) : t.inputs = s.inputs := by
  cases h with
  | command i h => cases h <;> rfl
  | _ => rfl

theorem execute_effect {acc : Access} {v : Word} {s t : State} (h : execute v s = .next t) : AccessEffect acc s t := by
  unfold execute at h
  split at h
  · unfold issue at h
    split at h
    · cases h; exact .same acc s
    · next hf => cases h; exact .illegal (by simpa using hf) v
  · next i _ => exact .command i (exec_effect h)

theorem hostAccess_effect {acc : Access} {s t : State} (h : hostAccess acc s = .next t) : AccessEffect acc s t := by
  cases acc with
  | read a n =>
    unfold hostAccess at h
    dsimp only at h
    split at h
    · split at h
      · cases h; exact .quiet _
      · unfold windowRead at h
        split at h
        · cases h
        · cases h; exact .quiet _
    · cases h
  | write a n v =>
    unfold hostAccess at h
    dsimp only at h
    split at h
    · split at h
      · next r _ =>
        cases r <;> simp only [regWrite] at h
        · exact execute_effect h
        · cases h; exact .same _ s
        · cases h; exact .same _ s
        · cases h; exact .glyphLo v
        · cases h; exact .glyphHi v
        · cases h; exact .same _ s
        · cases h; exact .same _ s
      · cases h; exact .same _ s
    · cases h

/-! ### What can stop -/

/-- Only a RENDER that passed its checks stops, at the lowest undefined byte. -/
theorem exec_fault {i : Instr} {s : State} {f : Fault} (h : exec i s = .fault f) :
    ∃ len j, i = .render len ∧ f = .uninit j ∧ frameUndefined s = some j ∧ faulted s = false ∧ initDone s = true ∧
      len.toNat = 1024 := by
  cases i with
  | setPixel x y val => simp only [exec, execSetPixel, issue] at h; split at h; cases h; split at h <;> cases h
  | drawGlyph x y => simp only [exec, execDrawGlyph, issue] at h; split at h; cases h; split at h <;> cases h
  | clear => simp only [exec, execClear, issue] at h; split at h <;> cases h
  | init => simp only [exec, execInit, issue] at h; split at h <;> cases h
  | render len =>
    simp only [exec, execRender, issue] at h
    split at h; cases h
    split at h; cases h
    split at h; cases h
    split at h
    · rename_i hf hi hl _ j hj
      cases h
      exact ⟨len, j, rfl, rfl, hj, by simpa using hf, by simpa using hi, by simpa using hl⟩
    · cases h

/-- Every command has its meaning. -/
theorem exec_not_refused (i : Instr) (s : State) (r : Refusal) : exec i s ≠ .refused r := by
  intro h
  cases i with
  | setPixel x y val => simp only [exec, execSetPixel, issue] at h; split at h; cases h; split at h <;> cases h
  | drawGlyph x y => simp only [exec, execDrawGlyph, issue] at h; split at h; cases h; split at h <;> cases h
  | clear => simp only [exec, execClear, issue] at h; split at h <;> cases h
  | init => simp only [exec, execInit, issue] at h; split at h <;> cases h
  | render len =>
    simp only [exec, execRender, issue] at h
    split at h; cases h
    split at h; cases h
    split at h; cases h
    split at h <;> cases h

theorem execute_fault {v : Word} {s : State} {f : Fault} (h : execute v s = .fault f) :
    ∃ j, f = .uninit j ∧ firstUndefined s 0 1024 = some j := by
  unfold execute at h; split at h
  · unfold issue at h; split at h <;> cases h
  · obtain ⟨_, j, _, e, hj, _⟩ := exec_fault h
    rw [frameUndefined_eq] at hj
    exact ⟨j, e, hj⟩

/-- A Host access stops at an undefined byte of FB, or because it is not admitted. -/
theorem hostAccess_fault {acc : Access} {s : State} {f : Fault} (h : hostAccess acc s = .fault f) :
    (∃ j, f = .uninit j ∧ byteDefined s j = false ∧ j < 1024) ∨
    (∃ a n, f = .notAdmitted a n ∧ admitted a n = false ∧ (acc = .read a n ∨ ∃ v, acc = .write a n v)) := by
  cases acc with
  | read a n =>
    simp only [hostAccess] at h
    split at h
    · next ha =>
      split at h
      · cases h
      · next hr =>
        obtain ⟨j, e, hj⟩ := windowRead_fault h
        obtain ⟨h1, h2, h3, _⟩ := firstUndefined_eq_some hj
        refine .inl ⟨j, e, h3, ?_⟩
        have := a.isLt
        simp only [winBase] at h2
        rcases (admitted_iff a n).mp ha with ⟨hlt, -, hm⟩ | ⟨hge, hn, hm⟩
        · exact absurd hr (regAt_register hlt hm)
        · rcases hn with rfl | rfl | rfl <;> omega
    · next ha => cases h; exact .inr ⟨a, n, rfl, by simpa using ha, .inl rfl⟩
  | write a n v =>
    simp only [hostAccess] at h
    split at h
    · split at h
      · next r _ =>
        cases r <;> simp only [regWrite] at h <;> try cases h
        obtain ⟨j, e, hj⟩ := execute_fault h
        obtain ⟨h1, h2, h3, _⟩ := firstUndefined_eq_some hj
        exact .inl ⟨j, e, h3, by omega⟩
      · cases h
    · next ha => cases h; exact .inr ⟨a, n, rfl, by simpa using ha, .inr ⟨v, rfl⟩⟩

theorem hostAccess_not_refused (acc : Access) (s : State) (r : Refusal) : hostAccess acc s ≠ .refused r := by
  intro h
  cases acc with
  | read a n =>
    simp only [hostAccess] at h
    split at h
    · split at h
      · cases h
      · unfold windowRead at h; split at h <;> cases h
    · cases h
  | write a n v =>
    simp only [hostAccess] at h
    split at h
    · split at h
      · next rr _ =>
        cases rr <;> simp only [regWrite] at h <;> try cases h
        unfold execute at h; split at h
        · unfold issue at h; split at h <;> cases h
        · exact exec_not_refused _ _ _ h
      · cases h
    · cases h

/-! ### Steps -/

/-- What a step that answers a next state has done, by the move at the head of `inputs`. -/
inductive StepEffect (s : State) : State → Prop
  /-- No move can happen: none is left, or the Host waits for the command in progress. -/
  | waits (h : s.inputs = [] ∨ s.seq ≠ .idle ∧ ∃ acc rest, s.inputs = .host acc :: rest) : StepEffect s s
  | reset (rest : List Input) (h : s.inputs = .reset :: rest) : StepEffect s (applyReset { s with inputs := rest })
  | accept (rest : List Input) (h : s.inputs = .accept :: rest) : StepEffect s (acceptTransfer { s with inputs := rest })
  | host (acc : Access) (rest : List Input) (h : s.inputs = .host acc :: rest) (hi : s.seq = .idle) {t : State}
      (ht : AccessEffect acc { s with inputs := rest } t) : StepEffect s t

theorem step_effect {s t : State} (h : step s = .next t) : StepEffect s t := by
  unfold step at h
  split at h
  · next hi => cases h; exact .waits (.inl hi)
  · next rest hi => cases h; exact .reset rest hi
  · next rest hi => cases h; exact .accept rest hi
  · next acc rest hi =>
    split at h
    · next hs => exact .host acc rest hi hs (hostAccess_effect h)
    · next hs => cases h; exact .waits (.inr ⟨hs, acc, rest, hi⟩)

/-- The same without a reset. -/
theorem noReset_effect {s t : State} (h0 : step s = .next t) (hr : noReset s) :
    t = s ∨ (∃ rest, s.inputs = .accept :: rest ∧ t = acceptTransfer {s with inputs := rest}) ∨
    (∃ acc rest, s.inputs = .host acc :: rest ∧ s.seq = .idle ∧
      AccessEffect acc { s with inputs := rest } t) := by
  cases step_effect h0 with
  | waits h => exact .inl rfl
  | reset rest h => rw [noReset, h] at hr; simp at hr
  | accept rest h => exact .inr (.inl ⟨rest, h, rfl⟩)
  | host acc rest h hi ht => exact .inr (.inr ⟨acc, rest, h, hi, ht⟩)

theorem step_accept {s : State} {rest : List Input} (h : s.inputs = .accept :: rest) :
    step s = .next (acceptTransfer { s with inputs := rest }) := by
  unfold step; rw [h]

theorem step_reset {s : State} {rest : List Input} (h : s.inputs = .reset :: rest) :
    step s = .next (applyReset { s with inputs := rest }) := by
  unfold step; rw [h]

theorem step_host {s : State} {acc : Access} {rest : List Input} (h : s.inputs = .host acc :: rest)
    (hi : s.seq = .idle) : step s = hostAccess acc { s with inputs := rest } := by
  unfold step; rw [h]; exact if_pos hi

/-- A `CMD` write with the Block idle executes its word. -/
theorem step_cmd {s : State} {v : Word} {rest : List Input}
    (h : s.inputs = .host (.write 0x000#11 4 v) :: rest) (hi : s.seq = .idle) :
    step s = execute v { s with inputs := rest } := by
  rw [step_host h hi]; exact hostAccess_write_register (r := .cmd) (by decide) (by decide) v _

/-- A legal register write with the Block idle. -/
theorem step_write_register {s : State} {a : Offset} {r : Reg} {v : Word} {rest : List Input} (ha : admitted a 4 = true)
    (hr : regAt a = some r) (h : s.inputs = .host (.write a 4 v) :: rest) (hi : s.seq = .idle) :
    step s = regWrite r v { s with inputs := rest } :=
  (step_host h hi).trans (hostAccess_write_register ha hr _ _)

/-- A legal register read with the Block idle. -/
theorem step_read_register {s : State} {a : Offset} {r : Reg} {rest : List Input} (ha : admitted a 4 = true)
    (hr : regAt a = some r) (h : s.inputs = .host (.read a 4) :: rest) (hi : s.seq = .idle) :
    step s = .next (answerRead (regRead r { s with inputs := rest }) { s with inputs := rest }) :=
  (step_host h hi).trans (hostAccess_read_register ha hr _)

theorem runsTo_succ {k : Nat} {s t u : State} (h : step s = .next u) : runsTo (k + 1) s t ↔ runsTo k u t := by
  constructor
  · rintro ⟨u', h', hr⟩
    have : u' = u := by rw [h] at h'; cases h'; rfl
    rwa [this] at hr
  · exact fun hr => ⟨u, h, hr⟩

theorem runsTo_add {j k : Nat} {s t u : State} (h : runsTo j s u) (h' : runsTo k u t) : runsTo (j + k) s t := by
  induction j generalizing s with
  | zero => cases h; simpa using h'
  | succ j ih =>
    obtain ⟨v, hv, hr⟩ := h
    rw [Nat.succ_add]
    exact ⟨v, hv, ih hr⟩

end Sys2Proof.Machine
end

