-- ==== Sys2Proof/Laws/Legal.lean ====
section
/-! SUPPORT. The framebuffer operations bit by bit, that they keep the memories legal, and when two legal states are equal. -/

namespace Sys2Proof.Machine

/-! ### Bits -/

theorem setBit_bit (w : Byte) (c : Nat) {b : Nat} (hb : b < 8) :
    (w ||| (1#8 <<< c)).getLsbD b = if b = c then true else w.getLsbD b := by
  rw [BitVec.getLsbD_or, BitVec.getLsbD_shiftLeft, BitVec.getLsbD_one]
  by_cases h : b = c
  · simp [h]; omega
  · by_cases h' : b < c
    · simp [h, h']
    · simp [h, show b - c ≠ 0 by omega]

theorem clearBit_bit (w : Byte) (c : Nat) {b : Nat} (hb : b < 8) :
    (w &&& ~~~(1#8 <<< c)).getLsbD b = if b = c then false else w.getLsbD b := by
  rw [BitVec.getLsbD_and, BitVec.getLsbD_not, BitVec.getLsbD_shiftLeft, BitVec.getLsbD_one]
  by_cases h : b = c
  · simp [h]
  · by_cases h' : b < c
    · simp [h, h', hb]
    · simp [h, hb, show b - c ≠ 0 by omega]

/-- `writeBit` gives its bit the value and leaves every other bit of every byte. -/
theorem writeBit_fb_bit (i c : Nat) (val : Bool) (s : State) (j : Nat) {b : Nat} (hb : b < 8) :
    (fbByte (writeBit i c val s) j).getLsbD b = if j = i ∧ b = c then val else (fbByte s j).getLsbD b := by
  rw [fbByte_writeBit]
  by_cases hj : j = i
  · subst hj
    cases val
    · simpa using clearBit_bit _ _ hb
    · simpa using setBit_bit _ _ hb
  · simp [hj]

/-- `writeBit` defines its bit and leaves every other DEF bit. -/
theorem writeBit_def_bit (i c : Nat) (val : Bool) (s : State) (j : Nat) {b : Nat} (hb : b < 8) :
    (defByte (writeBit i c val s) j).getLsbD b = if j = i ∧ b = c then true else (defByte s j).getLsbD b := by
  rw [defByte_writeBit]
  by_cases hj : j = i
  · subst hj; simpa using setBit_bit _ _ hb
  · simp [hj]

/-- A byte is 0xFF if and only if each of its eight bits is 1. -/
theorem byte_eq_ff_iff (w : Byte) : w = 0xFF#8 ↔ ∀ b, b < 8 → w.getLsbD b = true := by
  constructor
  · rintro rfl b hb
    interval_cases b <;> rfl
  · intro h
    refine BitVec.eq_of_getLsbD_eq fun b hb => ?_
    rw [h b hb]
    interval_cases b <;> rfl

/-- Bit `i` of a little-endian word is bit `i % 8` of byte `i / 8` (R51). -/
theorem leWord_bit (l : List Byte) (i : Nat) (hi : i < 32) :
    (leWord l).getLsbD i = (l.getD (i / 8) 0#8).getLsbD (i % 8) := by
  induction l generalizing i with
  | nil => simp [leWord]
  | cons v r ih =>
    rw [leWord, BitVec.getLsbD_or, BitVec.getLsbD_setWidth, BitVec.getLsbD_shiftLeft]
    by_cases h : i < 8
    · simp [h, hi, Nat.div_eq_of_lt h, Nat.mod_eq_of_lt h]
    · obtain ⟨d, rfl⟩ : ∃ d, i = d + 8 := ⟨i - 8, by omega⟩
      have e1 : (d + 8) / 8 = d / 8 + 1 := by omega
      have e2 : (d + 8) % 8 = d % 8 := by omega
      have e3 : d + 8 - 8 = d := by omega
      rw [e1, e2, e3, List.getD_cons_succ, ← ih d (by omega), BitVec.getLsbD_of_ge v _ (by omega)]
      simp [hi, show ¬ d + 8 < 8 by omega]

/-- A little-endian word holds its bytes (R51). -/
theorem wordByte_leWord (l : List Byte) {k : Nat} (hk : k < 4) : wordByte (leWord l) k = l.getD k 0#8 := by
  refine BitVec.eq_of_getLsbD_eq fun b hb => ?_
  rw [wordByte, BitVec.getLsbD_extractLsb', leWord_bit _ _ (by omega), show (8 * k + b) / 8 = k by omega,
    show (8 * k + b) % 8 = b by omega]
  simp [hb]

/-! ### Legal memories -/

theorem memoryLegal_writeBit {s : State} (h : memoryLegal s) {i : Nat} (hi : i < 1024) (c : Nat) (val : Bool) :
    memoryLegal (writeBit i c val s) :=
  ⟨Memory.wf_write h.1 _ _, Memory.wf_write h.2.1 _ _, Memory.below_write h.2.2.1 hi _, Memory.below_write h.2.2.2 hi _⟩

theorem memoryLegal_writeByte {s : State} (h : memoryLegal s) {i : Nat} (hi : i < 1024) (v : Byte) :
    memoryLegal (writeByte i v s) := by
  refine ⟨?_, ?_, ?_, ?_⟩
  · rw [writeByte_fb]; exact Memory.wf_write h.1 _ _
  · rw [writeByte_defd]; exact Memory.wf_write h.2.1 _ _
  · rw [writeByte_fb]; exact Memory.below_write h.2.2.1 hi _
  · rw [writeByte_defd]; exact Memory.below_write h.2.2.2 hi _

theorem memoryLegal_writeBytes {s : State} (h : memoryLegal s) {base : Nat} {l : List Byte} (hl : base + l.length ≤ 1024) :
    memoryLegal (writeBytes base l s) := by
  induction l generalizing base s with
  | nil => exact h
  | cons v rest ih =>
    rw [List.length_cons] at hl
    exact ih (memoryLegal_writeByte h (by omega) v) (by omega)

theorem memoryLegal_fillFramebuffer (v : Byte) (s : State) : memoryLegal (fillFramebuffer v s) := by
  refine ⟨?_, ?_, ?_, ?_⟩
  · rw [fillFramebuffer_fb]; exact Memory.wf_fill _ _
  · rw [fillFramebuffer_defd]; exact Memory.wf_fill _ _
  · rw [fillFramebuffer_fb]; exact Memory.below_fill _ _
  · rw [fillFramebuffer_defd]; exact Memory.below_fill _ _

theorem memoryLegal_reset : memoryLegal State.reset := ⟨rfl, rfl, rfl, rfl⟩

/-- Two states with legal memories that agree on every framebuffer and DEF byte and on all else are equal. -/
theorem State.eq_of_bytes {s t : State} (hs : memoryLegal s) (ht : memoryLegal t) (hr : t = { s with fb := t.fb, defd := t.defd })
    (h1 : ∀ j, fbByte t j = fbByte s j) (h2 : ∀ j, defByte t j = defByte s j) : t = s := by
  rw [hr, Memory.ext_of_wf ht.1 hs.1 h1, Memory.ext_of_wf ht.2.1 hs.2.1 h2]

/-! ### Addresses and registers -/

/-- An offset that names a register is that register's offset (R26). -/
theorem regAt_offset {a : Offset} {r : Reg} (h : regAt a = some r) : a = regOffset r := by
  unfold regAt at h
  split_ifs at h <;> cases h <;> assumption

theorem originLegal_lt {x y : BitVec 8} (h : originLegal x y = true) : byteIdx x y + 8 ≤ 1024 := by
  obtain ⟨-, hy, hx⟩ := (originLegal_iff x y).mp h
  simp only [byteIdx, Geom.pageH, Geom.W]
  omega

/-! ### A legal command's next state -/

theorem exec_setPixel_legal {s : State} {x y : BitVec 8} (val : Bool) (hf : faulted s = false) (hl : pixelLegal x y = true) :
    exec (.setPixel x y val) s = .next (writeBit (byteIdx x y) (bitIdx y) val s) := by
  simp only [exec, execSetPixel, issue_ok hf, hl, if_true]

theorem exec_setPixel_rejected {s : State} {x y : BitVec 8} (val : Bool) (hf : faulted s = false) (hl : pixelLegal x y = false) :
    exec (.setPixel x y val) s = .next (raiseError .geometry (encode (.setPixel x y val)) s) := by
  simp [exec, execSetPixel, issue_ok hf, hl]

theorem exec_drawGlyph_legal {s : State} {x y : BitVec 8} (hf : faulted s = false) (hl : originLegal x y = true) :
    exec (.drawGlyph x y) s = .next (writeBytes (byteIdx x y) (glyph s) s) := by
  simp only [exec, execDrawGlyph, issue_ok hf, hl, if_true]

theorem exec_drawGlyph_rejected {s : State} {x y : BitVec 8} (hf : faulted s = false) (hl : originLegal x y = false) :
    exec (.drawGlyph x y) s = .next (raiseError .geometry (encode (.drawGlyph x y)) s) := by
  simp [exec, execDrawGlyph, issue_ok hf, hl]

theorem exec_faulted {s : State} (hf : faulted s = true) (i : Instr) : exec i s = .next s := by
  cases i <;> simp only [exec, execSetPixel, execDrawGlyph, execClear, execInit, execRender, issue_faulted hf]

end Sys2Proof.Machine
end

