-- ==== Sys2Proof/Tests/Slice0.lean ====
section
/-! SUPPORT. Small tests, each on one step or one word, with expected results from the spec's own vectors (95_test_vectors.md,
whose row is named beside each), and for every statement with hypotheses a witness that meets them. -/

namespace Sys2Proof.Tests

open Sys2Proof Sys2Proof.Machine

/-! ### Helpers -/

/-- One value of the next state an outcome answers. -/
def look {α : Type} (f : State → α) : Outcome → Option α
  | .next s => some (f s)
  | .fault _ => none
  | .refused _ => none

/-- The fault an outcome answers. -/
def stopOf : Outcome → Option Fault
  | .next _ => none
  | .fault f => some f
  | .refused _ => none

/-- The two error registers. -/
def errRegs (s : State) : Word × Word := (s.status, s.errCmd)

/-- Reset, every framebuffer bit written with 0: the start state of the vectors of section 2. -/
def cleared : State := { State.reset with defd := Memory.fill Geom.fbBytes 0xFF#8 }

/-- The same after INIT. -/
def ready : State := { cleared with status := 0x00000001#32 }

/-- Reset, with byte 133 written. -/
def with133 (v : Byte) : State := { State.reset with fb := Memory.write [] 133 v, defd := [(133, 0xFF#8)] }

/-- The glyph registers of the vectors G1 to G9. -/
def staged : State := { State.reset with glyphLo := 0x087F0000#32, glyphHi := 0x00007F08#32 }

/-- The state after vector P10. -/
def latched : State := { State.reset with status := 0x00000012#32, errCmd := 0x10010080#32 }

/-- `s` with moves placed. -/
def placed (l : List Input) (s : State) : State := { s with inputs := l }

/-- A `CMD` write. -/
def cmd (v : Word) : Input := .host (.write 0x000#11 4 v)

theorem noReset_of {s : State} (h : s.inputs.head? ≠ some .reset) : noReset s := h

theorem allDefined_of {s : State} (h : s.defd = Memory.fill Geom.fbBytes 0xFF#8) : allDefined s := by
  intro i hi
  rw [byteDefined_iff, defByte, h, Memory.read_fill, if_pos hi]

theorem cleared_allDefined : allDefined cleared := allDefined_of (by unfold cleared; dsimp only)

theorem ready_allDefined : allDefined ready := allDefined_of (by unfold ready cleared; dsimp only)

theorem placed_allDefined (l : List Input) (q : Seq) : allDefined (placed l { ready with seq := q }) :=
  allDefined_of (by unfold placed ready cleared; dsimp only)

/-! ### Encodings, each word written out from R82 and R84 -/

/-- E10, R93. -/
theorem test_decode_setPixel : decode 0b0001_00000000000_1_00001101_00000101#32 = .ok (.setPixel 5 13 true) := by decide

/-- R93. -/
theorem test_decode_setPixel_off : decode 0b0001_00000000000_0_00111111_01111111#32 = .ok (.setPixel 127 63 false) := by decide

/-- R93. -/
theorem test_decode_drawGlyph : decode 0b0010_000000000000_00111000_01111000#32 = .ok (.drawGlyph 120 56) := by decide

theorem test_decode_clear : decode 0b0011_0000000000000000000000000000#32 = .ok .clear := by decide

theorem test_decode_init : decode 0b0100_0000000000000000000000000000#32 = .ok .init := by decide

/-- R93. -/
theorem test_decode_render : decode 0b0101_000000000000_0000001111111111#32 = .ok (.render 1023) := by decide

/-- R83: every bit of a field is an operand bit. -/
theorem test_decode_full_fields :
    decode 0x1000A55A#32 = .ok (.setPixel 0x5A 0xA5 false) ∧ decode 0x2000A55A#32 = .ok (.drawGlyph 0x5A 0xA5) ∧
    decode 0x5000A55A#32 = .ok (.render 0xA55A) := by decide

theorem test_decodeTableWord : decodeTableWord 32 0x10010D05 = some (.setPixel 5 13 true) ∧
    decodeTableWord 32 0x60000000 = none := by decide

/-- Every constructor stands beside the mnemonic of the row that its words are selected by. -/
theorem test_mnemonics : ∀ i ∈ [Instr.setPixel 0 0 true, .drawGlyph 0 0, .clear, .init, .render 0],
    i.row.mnemonic = i.mnemonic ∧ i.row.selects (encode i) = true := by decide

/-! ### Well-formedness: the ill-formed words of E1 to E9, one for each check, and their refusal by the decoder -/

theorem test_wellFormed_accepts : [0x10010D05#32, 0x20003878#32, 0x30000000#32, 0x40000000#32, 0x5000FFFF#32].all (fun v =>
    wordWellFormed v = true) := by decide

/-- E1, E2, E3: no legal opcode. -/
theorem test_wellFormed_opcode : [0x00000000#32, 0x60000000#32, 0xF0000000#32].all (fun v =>
    wordWellFormed v = false ∧ decode v = .error .opcode) := by decide

/-- E4 and the highest reserved bit of Format P. -/
theorem test_wellFormed_formatP : [0x10020000#32, 0x18000000#32].all (fun v =>
    wordWellFormed v = false ∧ decode v = .error .reservedBits) := by decide

/-- E5 and the highest reserved bit of Format G. -/
theorem test_wellFormed_formatG : [0x20010000#32, 0x28000000#32].all (fun v =>
    wordWellFormed v = false ∧ decode v = .error .reservedBits) := by decide

/-- E6, E7: Format N, for CLEAR and INIT. -/
theorem test_wellFormed_formatN : [0x30000001#32, 0x38000000#32, 0x40000001#32, 0x48000000#32].all (fun v =>
    wordWellFormed v = false ∧ decode v = .error .reservedBits) := by decide

/-- E8 and the highest reserved bit of Format L. -/
theorem test_wellFormed_formatL : [0x50010400#32, 0x58000400#32].all (fun v =>
    wordWellFormed v = false ∧ decode v = .error .reservedBits) := by decide

/-! ### Executing an illegal word -/

/-- E1, E9, R10: an illegal word is decided before any other condition. -/
theorem test_illegal_word : [0x00000000#32, 0x100300C8#32, 0x50010000#32].all (fun v =>
    look errRegs (step (State.reset.withFetchWord 32 v.toNat)) = some (0x00000052#32, v)) := by decide

/-! ### SET_PIXEL -/

/-- P3: one bit cleared, its neighbour kept. -/
theorem test_setPixel_clears_one_bit :
    look (fun s => fbByte s 133) (exec (.setPixel 5 13 false) (with133 0x60#8)) = some 0x40#8 := by decide

/-- P10 on the step: the word at the port is the word in ERR_CMD. -/
theorem test_setPixel_outside :
    look errRegs (step (State.reset.withFetchWord 32 0x10010080)) = some (0x00000012#32, 0x10010080#32) := by decide

/-- P8, P7: the last bit of FB, and the first of page 1. -/
theorem test_setPixel_indices : (byteIdx 127 63, bitIdx 63) = (1023, 7) ∧ (byteIdx 0 8, bitIdx 8) = (128, 0) := by decide

/-- P13: one bit written makes one bit defined, and the byte still stops a read. -/
theorem test_setPixel_defines_one_bit :
    look (fun s => (defByte s 3, fbByte s 3, stopOf (hostAccess (.read 0x403#11 1) s))) (exec (.setPixel 3 3 true) State.reset)
      = some (0x08#8, 0x08#8, some (.uninit 3)) := by decide

/-! ### DRAW_GLYPH -/

/-- G2: the last legal origin, read back as two words. -/
theorem test_drawGlyph_last_origin :
    look (fun s => (look (·.hostReads) (hostAccess (.read 0x7F8#11 4) s), look (·.hostReads) (hostAccess (.read 0x7FC#11 4) s)))
      (exec (.drawGlyph 120 56) staged) = some (some [0x087F0000#32], some [0x00007F08#32]) := by decide

/-- G4, G5, G6, G7. -/
theorem test_drawGlyph_rejected : [0x20000079#32, 0x20000400#32, 0x20004000#32, 0x200000FA#32].all (fun v =>
    look (fun s => (errRegs s, s.fb)) (step (staged.withFetchWord 32 v.toNat)) = some ((0x00000012#32, v), [])) := by decide

/-! ### CLEAR -/

/-- C2. -/
theorem test_clear_keeps_glyph :
    look (fun s => (s.glyphLo, s.fb, s.status)) (exec .clear { with133 0x40#8 with glyphLo := 0x087F0000#32 })
      = some (0x087F0000#32, [], 0x00000000#32) := by decide

/-- C1, read at the last word. -/
theorem test_clear_defines : ∃ t, exec .clear State.reset = .next t ∧ fbByte t 1023 = 0x00#8 ∧ defByte t 1023 = 0xFF#8 :=
  ⟨_, rfl, by rw [fbByte_fillFramebuffer]; decide, by rw [defByte_fillFramebuffer]; decide⟩

/-! ### INIT -/

/-- I2. -/
theorem test_init_stream (cp : Byte) : (initSeq (InitOps.defaults cp)).toList =
    [0xAE#8, 0x40#8, 0xA1#8, 0xA8#8, 0x3F#8, 0xC8#8, 0xD3#8, 0x00#8, 0xDA#8, 0x12#8, 0xD5#8, 0x80#8, 0xD9#8, 0xF1#8, 0xDB#8,
     0x35#8, 0x81#8, 0xFF#8, 0xA4#8, 0xA6#8, cp, 0xAF#8] := rfl

/-- I1, its last transfer: byte 21, INIT_DONE, and IDLE. -/
theorem test_init_last_transfer :
    acceptTransfer { State.reset with seq := .init 21 } =
      { State.reset with status := 0x00000001#32, trace := [⟨0x3C#7, [0x80#8, Config.initOps.displayOn]⟩] } := rfl

/-! ### RENDER -/

/-- R8, R9: before INIT, with either length. -/
theorem test_render_before_init :
    look errRegs (exec (.render 1024) State.reset) = some (0x00000042#32, 0x50000400#32) ∧
    look errRegs (exec (.render 0) State.reset) = some (0x00000042#32, 0x50000000#32) := by decide

/-- R4, R7, R11: a wrong length, then an unwritten framebuffer, each before any transfer. -/
theorem test_render_wrong_length :
    look errRegs (exec (.render 1023) ready) = some (0x00000023#32, 0x500003FF#32) ∧
    look errRegs (exec (.render 65535) ready) = some (0x00000023#32, 0x5000FFFF#32) ∧
    stopOf (exec (.render 1024) { State.reset with status := 0x00000001#32 }) = some (.uninit 0) := ⟨by decide, by decide, by decide +kernel⟩

/-- R2: the first transfer of page 3, and R3: byte 6 of the page 1 data. -/
theorem test_render_page_bytes :
    (sendRender 3 0 ready).trace = [⟨0x3C#7, [0x80#8, 0xB3#8]⟩] ∧
    (sendRender 3 1 ready).trace = [⟨0x3C#7, [0x80#8, 0x02#8]⟩] ∧
    (sendRender 3 2 ready).trace = [⟨0x3C#7, [0x80#8, 0x10#8]⟩] ∧
    ((sendRender 1 3 (with133 0x40#8)).trace.map (fun t => (t.bytes.length, t.bytes[0]?, t.bytes[6]?))) =
      [(129, some 0x40#8, some 0x40#8)] := by decide +kernel

/-! ### The host port -/

/-- H1, H2, H3. -/
theorem test_constant_reads :
    [(0x014#11, 0x08084080#32), (0x018#11, 0x4080023C#32), (0x000#11, 0x00000000#32)].all (fun e =>
      look (·.hostReads) (hostAccess (.read e.1 4) State.reset) = some [e.2]) := by decide

/-- H4, H11: writes that are ignored. -/
theorem test_ignored_writes :
    look (·.status) (hostAccess (.write 0x004#11 4 0xFFFFFFFF#32) State.reset) = some 0x00000000#32 ∧
    look (·.fb) (hostAccess (.write 0x400#11 4 0xFFFFFFFF#32) State.reset) = some [] := by decide

/-- H6: one memory read at three widths. -/
theorem test_window_little_endian :
    [(1, 0x80#32), (2, 0x0180#32), (4, 0x00000180#32)].all (fun e =>
      look (·.hostReads) (hostAccess (.read 0x400#11 e.1)
        { State.reset with fb := [(0, 0x80#8), (1, 0x01#8)], defd := [(0, 0xFF#8), (1, 0xFF#8), (2, 0xFF#8), (3, 0xFF#8)] })
      = some [e.2]) := by decide

/-- H7, H8, H9, H10: not admitted; H12: an unwritten byte. -/
theorem test_stuck_accesses :
    ([(0x401#11, 2), (0x402#11, 4), (0x020#11, 4), (0x004#11, 2)].all (fun e =>
      stopOf (hostAccess (.read e.1 e.2) State.reset) = some (.notAdmitted e.1 e.2))) ∧
    stopOf (hostAccess (.read 0x400#11 1) State.reset) = some (.uninit 0) := by decide

/-- F1, F2, F3, F4: the fault state ignores commands, and glyph writes still work. -/
theorem test_fault_state :
    (∀ v ∈ [0x10010000#32, 0x40000000#32, 0x00000000#32], execute v latched = .next latched) ∧
    look (·.glyphLo) (hostAccess (.write 0x00C#11 4 0x000000AA#32) latched) = some 0x000000AA#32 :=
  ⟨by intro v hv; simp only [List.mem_cons, List.not_mem_nil, or_false] at hv; rcases hv with rfl | rfl | rfl <;> rfl, by decide⟩

/-- F5. -/
theorem test_reset_leaves_fault_state :
    look (fun s => (errRegs s, s.defd)) (step (placed [.reset] { latched with defd := [(0, 0xFF#8)] }))
      = some ((0x00000000#32, 0x00000000#32), []) := by decide

/-- R92: the pseudo-instruction of program P2 writes the words the program shows. -/
theorem test_loadGlyph : (AsmLine.loadGlyph 0x00 0x00 0x7F 0x08 0x08 0x7F 0x00 0x00).expand =
    [.write 0x00C#11 4 0x087F0000#32, .write 0x010#11 4 0x00007F08#32] := by decide

/-! ### Witnesses: for each statement with hypotheses, inputs that meet them, at the boundaries of its clauses -/

theorem test_witness_EncodeOfDecodeIsTheWord : decode 0x5000FFFF#32 = .ok (.render 65535) := by decide

theorem test_witness_WordSelectsACommandIffItsRowMatches :
    (0x0FFFFFFF#32 >>> 28).toNat = 0 ∧ 6 ≤ (0x60000000#32 >>> 28).toNat ∧
    0x1001FFFF#32 &&& 0xFFFE0000#32 = 0x10000000#32 ∧ 0x2000FFFF#32 &&& 0xFFFF0000#32 = 0x20000000#32 ∧
    0x30000000#32 &&& 0xFFFFFFFF#32 = 0x30000000#32 ∧ 0x40000000#32 &&& 0xFFFFFFFF#32 = 0x40000000#32 ∧
    0x5000FFFF#32 &&& 0xFFFF0000#32 = 0x50000000#32 := by decide

theorem test_witness_OperandsAreTheZeroExtendedFields :
    decode 0x1001FF00#32 = .ok (.setPixel 0 255 true) ∧ decode 0x200000FF#32 = .ok (.drawGlyph 255 0) ∧
    decode 0x50000000#32 = .ok (.render 0) := by decide

/-- The lowest and the highest word of each kind: no legal opcode, and each format's outermost reserved bits. -/
theorem test_witness_IllegalWordRaisesIllegalCommand :
    (placed [cmd 0x60000000#32] State.reset).inputs = cmd 0x60000000#32 :: [] ∧ State.reset.seq = .idle ∧
    faulted State.reset = false ∧
    [0x00000000#32, 0x0FFFFFFF#32, 0x60000000#32, 0xFFFFFFFF#32, 0x10020000#32, 0x1FFFFFFF#32, 0x20010000#32, 0x28000000#32,
      0x50010400#32, 0x58000400#32, 0x30000001#32, 0x48000000#32].all (fun v =>
      let op := (v >>> 28).toNat
      op = 0 ∨ 6 ≤ op ∨ (op = 1 ∧ v &&& 0x0FFE0000#32 ≠ 0#32) ∨ ((op = 2 ∨ op = 5) ∧ v &&& 0x0FFF0000#32 ≠ 0#32) ∨
        ((op = 3 ∨ op = 4) ∧ v &&& 0x0FFFFFFF#32 ≠ 0#32)) := by decide

theorem test_witness_StepRunsTheDecodedCommand :
    let s := placed [cmd 0x30000000#32] State.reset
    s.inputs = cmd 0x30000000#32 :: [] ∧ s.seq = .idle ∧ decode 0x30000000#32 = .ok .clear := by decide

theorem test_witness_HostWaitsWhileACommandRuns :
    (let s := placed [cmd 0x30000000#32] { State.reset with seq := .init 0 }
     s.seq ≠ .idle ∧ ∃ acc rest, s.inputs = .host acc :: rest) ∧
    (let s := placed [] { ready with seq := .render 7 3 }
     s.seq ≠ .idle ∧ s.inputs = []) ∧
    (let s := placed [.host (.write 0x00C#11 4 1#32)] State.reset
     ∃ t, step s = .next t ∧ t.inputs = []) :=
  ⟨⟨by decide, _, _, rfl⟩, by decide, _, rfl, rfl⟩

theorem test_witness_StepStopsOnlyForTheTwoModelFaults :
    step (placed [.host (.read 0x7FF#11 1)] State.reset) = .fault (.uninit 1023) ∧
    step (placed [.host (.read 0x01C#11 4)] State.reset) = .fault (.notAdmitted 0x01C#11 4) ∧
    step (placed [.host (.write 0x3FC#11 4 0#32)] State.reset) = .fault (.notAdmitted 0x3FC#11 4) := ⟨rfl, rfl, rfl⟩

theorem test_witness_ErrorsAreLatchedUntilReset :
    faulted latched = true ∧
    (placed [cmd 0x40000000#32] latched).inputs = cmd 0x40000000#32 :: [] ∧ latched.seq = .idle ∧
    (∃ t, step (placed [.accept] latched) = .next t) ∧ noReset (placed [.accept] latched) ∧
    (placed [.reset] latched).inputs = .reset :: [] :=
  ⟨by decide, rfl, rfl, ⟨_, rfl⟩, noReset_of (by decide), rfl⟩

theorem test_witness_ErrorsArePrecise :
    (faulted State.reset = false ∧ ∃ t, execute 0x10010080#32 State.reset = .next t ∧ faulted t = true) ∧
    (let s := placed [.accept] { State.reset with seq := .init 21 }
     s.seq ≠ .idle ∧ faulted s = false ∧ ∃ t, step s = .next t) :=
  ⟨⟨by decide, _, rfl, by decide⟩, by decide, by decide, _, rfl⟩

theorem test_witness_FirstConditionDecidesTheError :
    faulted latched = true ∧ decode 0x00000000#32 = .error .opcode ∧ initDone State.reset = false ∧
    decode 0x500003FF#32 = .ok (.render 1023) ∧ decode 0x50000400#32 = .ok (.render 1024) ∧ initDone ready = true ∧
    faulted ready = false ∧ byteDefined (with133 0#8) 0 = false ∧ allDefined cleared ∧
    decode 0x10000080#32 = .ok (.setPixel 128 0 false) ∧ decode 0x10003F7F#32 = .ok (.setPixel 127 63 false) ∧
    decode 0x20003878#32 = .ok (.drawGlyph 120 56) ∧ decode 0x20003879#32 = .ok (.drawGlyph 121 56) :=
  ⟨by decide, by decide, by decide, by decide, by decide, by decide, by decide, by decide, cleared_allDefined,
    by decide, by decide, by decide, by decide⟩

theorem test_witness_ResetFromAnyStateKeepsOnlyTheTrace :
    (placed [.reset] { latched with seq := .idle }).inputs = .reset :: [] ∧
    (placed [.reset] { ready with seq := .render 7 3 }).inputs = .reset :: [] ∧
    (faulted latched = true ∧ noReset latched ∧ ∃ t, step latched = .next t) ∧
    (let s := placed [cmd 0x30000000#32] { State.reset with seq := .init 5 }
     s.seq ≠ .idle ∧ noReset s ∧ s.inputs.head? ≠ some .accept) :=
  ⟨rfl, rfl, ⟨by decide, noReset_of (by decide), _, rfl⟩, by decide, noReset_of (by decide), by decide⟩

theorem test_witness_HostAddressReachesItsOffset :
    Config.fbpBase + 2048 ≤ Config.fbpBase + 2048 ∧ hostOffset (Config.fbpBase + 2048) = none ∧
    hostOffset (Config.fbpBase + 2047) = some 0x7FF#11 := by
  refine ⟨le_refl _, ?_, ?_⟩
  · simp [hostOffset]
  · simp [hostOffset]

/-- Both outcomes at the edges of the table of R55. -/
theorem test_witness_AdmittedAccessesAreThoseOfTheTable :
    (placed [.host (.read 0x018#11 4)] State.reset).seq = .idle ∧
    admitted 0x018#11 4 = true ∧ admitted 0x01B#11 4 = false ∧ admitted 0x01C#11 4 = false ∧ admitted 0x3FF#11 1 = false ∧
    admitted 0x400#11 1 = true ∧ admitted 0x7FC#11 4 = true ∧ admitted 0x7FE#11 4 = false ∧ admitted 0x7FF#11 1 = true ∧
    admitted 0x400#11 3 = false ∧ admitted 0x400#11 0 = false ∧ admitted 0x000#11 1 = false := by decide

theorem test_witness_RegisterReadsReturnTheCurrentValue :
    let s := placed [.host (.read 0x004#11 4)] latched
    s.seq = .idle ∧ s.inputs = .host (.read 0x004#11 4) :: [] := by decide

theorem test_witness_HostWritesReachOnlyTheirRegister :
    State.reset.seq = .idle ∧
    ([0x000#11, 0x00C#11, 0x010#11, 0x004#11, 0x008#11, 0x014#11, 0x018#11].all (fun a =>
      (placed [.host (.write a 4 7#32)] State.reset).inputs = .host (.write a 4 7#32) :: [])) ∧
    (0x400 ≤ (0x7FC#11).toNat ∧ (0x7FC#11).toNat % 4 = 0 ∧
      (placed [.host (.write 0x7FC#11 4 7#32)] State.reset).inputs = .host (.write 0x7FC#11 4 7#32) :: []) ∧
    (0x400 ≤ (0x400#11).toNat ∧ (0x400#11).toNat % 1 = 0) := by decide

theorem test_witness_WindowReadAnswersTheBytesLittleEndian :
    (1023 % 1 = 0 ∧ 1023 < 1024 ∧ cleared.seq = .idle ∧
      (placed [.host (.read 0x7FF#11 1)] cleared).inputs = .host (.read (BitVec.ofNat 11 (0x400 + 1023)) 1) :: [] ∧
      ∀ k, k < 1 → defByte cleared (1023 + k) = 0xFF#8) ∧
    (let s := placed [.host (.read 0x400#11 4)] { State.reset with defd := [(0, 0xFF#8), (1, 0x7F#8)] }
     s.inputs = .host (.read (BitVec.ofNat 11 (0x400 + 0)) 4) :: [] ∧ defByte s (0 + 1) ≠ 0xFF#8 ∧
       ∀ j, j < 1 → defByte s (0 + j) = 0xFF#8) := by
  refine ⟨⟨rfl, by decide, rfl, by decide +kernel, fun k hk => ?_⟩, rfl, by decide, by decide⟩
  exact (byteDefined_iff _ _).mp (cleared_allDefined (1023 + k) (by simp; omega))

theorem test_witness_WindowWidthsSeeTheSameBytes :
    (∀ k, k < 1 → defByte cleared (1023 + k) = 0xFF#8) ∧ (1022 % 2 = 0 ∧ ∀ k, k < 2 → defByte cleared (1022 + k) = 0xFF#8) ∧
    (1020 % 4 = 0 ∧ ∀ k, k < 4 → defByte cleared (1020 + k) = 0xFF#8) := by
  refine ⟨fun k hk => ?_, ⟨rfl, fun k hk => ?_⟩, rfl, fun k hk => ?_⟩ <;>
    exact (byteDefined_iff _ _).mp (cleared_allDefined _ (by simp; omega))

theorem test_witness_GlyphRegistersHoldTheGlyphBytes :
    let s := placed [.host (.write 0x00C#11 4 1#32), .host (.write 0x010#11 4 2#32), .host (.read 0x00C#11 4),
      .host (.read 0x010#11 4)] State.reset
    s.seq = .idle ∧ s.inputs = .host (.write 0x00C#11 4 1#32) :: .host (.write 0x010#11 4 2#32) ::
      .host (.read 0x00C#11 4) :: .host (.read 0x010#11 4) :: [] := by decide

theorem test_witness_GlyphRegistersChangeOnlyByHostWrites :
    (let s := placed [.host (.write 0x00C#11 4 1#32)] State.reset
     noReset s ∧ ∃ t, step s = .next t ∧ t.glyphLo ≠ s.glyphLo) ∧
    (let s := placed [.host (.write 0x010#11 4 1#32)] State.reset
     noReset s ∧ ∃ t, step s = .next t ∧ t.glyphHi ≠ s.glyphHi) :=
  ⟨⟨noReset_of (by decide), _, rfl, by decide⟩, noReset_of (by decide), _, rfl, by decide⟩

theorem test_witness_PixelsAreExactlyTheFramebufferBits :
    (127#8).toNat < 128 ∧ (63#8).toNat < 64 ∧ byteIdx 127 63 = 1023 ∧ bitIdx 63 = 7 := by decide

/-- The hypotheses of the three statements about a legal pixel, at the last pixel. -/
theorem test_witness_SetPixelWritesExactlyItsBit :
    faulted State.reset = false ∧ (127#8).toNat < 128 ∧ (63#8).toNat < 64 := by decide

theorem test_witness_SettingThenClearingAPixelIsIsolated :
    faulted (with133 0x60#8) = false ∧ (5#8).toNat < 128 ∧ (13#8).toNat < 64 := by decide

theorem test_witness_SetPixelOutsideTheDisplayRaisesGeometry :
    faulted State.reset = false ∧ 128 ≤ (128#8).toNat ∧ 64 ≤ (64#8).toNat := by decide

theorem test_witness_PixelWritesLastDecidesAndOthersCommute :
    memoryLegal State.reset ∧ ((127#8, 63#8) : BitVec 8 × BitVec 8) ≠ (127#8, 62#8) ∧
    (∃ u, exec (.setPixel 127 63 true) State.reset = .next u ∧ faulted u = false) ∧
    (∃ w, exec (.setPixel 127 62 false) State.reset = .next w ∧ faulted w = false) :=
  ⟨memoryLegal_reset, by decide, ⟨_, rfl, by decide⟩, _, rfl, by decide⟩

theorem test_witness_DrawGlyphCopiesTheStagedGlyph :
    faulted staged = false ∧ (56#8).toNat % 8 = 0 ∧ (56#8).toNat < 64 ∧ (120#8).toNat + 8 ≤ 128 := by decide

/-- Both outcomes, at the last legal origin and past it. -/
theorem test_witness_GlyphOriginsAreTheLegalOnes :
    faulted staged = false ∧ originLegal 120 56 = true ∧ originLegal 121 56 = false ∧ originLegal 0 4 = false ∧
    originLegal 0 64 = false ∧ originLegal 250 0 = false := by decide

theorem test_witness_GlyphReadsBackUnchanged :
    let lines := (AsmLine.loadGlyph 1 2 3 4 5 6 7 8).expand ++ (AsmLine.drawGlyph 120 56).expand ++
      (AsmLine.rdb (BitVec.ofNat 10 (((56#8).toNat / 8) * 128 + (120#8).toNat + 7))).expand
    let s := placed (lines.map Input.host ++ []) State.reset
    s.seq = .idle ∧ faulted s = false ∧ (56#8).toNat % 8 = 0 ∧ (56#8).toNat < 64 ∧ (120#8).toNat ≤ 120 ∧ 7 < 8 ∧
      s.inputs = lines.map Input.host ++ [] := by decide

/-- The hypotheses of the two statements about CLEAR. -/
theorem test_witness_ClearTurnsEveryPixelOff : faulted (with133 0x40#8) = false := by decide

theorem test_witness_ClearIsTheLoopOfTheRule : memoryLegal (with133 0x40#8) ∧ faulted (with133 0x40#8) = false :=
  ⟨⟨rfl, rfl, rfl, rfl⟩, by decide⟩

/-- Each of the three commands, the error path of two of them, and the fault state. -/
theorem test_witness_FramebufferCommandsFrame :
    (∃ t, exec (.setPixel 127 63 true) State.reset = .next t) ∧ (∃ t, exec (.setPixel 128 63 true) State.reset = .next t) ∧
    (∃ t, exec (.drawGlyph 120 56) State.reset = .next t) ∧ (∃ t, exec (.drawGlyph 121 56) State.reset = .next t) ∧
    (∃ t, exec .clear State.reset = .next t) ∧ (faulted latched = true ∧ ∃ t, exec .clear latched = .next t) :=
  ⟨⟨_, rfl⟩, ⟨_, rfl⟩, ⟨_, rfl⟩, ⟨_, rfl⟩, ⟨_, rfl⟩, by decide, _, rfl⟩

theorem test_witness_FramebufferChangesOnlyByItsCommands :
    let s := placed [cmd 0x10010000#32] State.reset
    noReset s ∧ ∃ t, step s = .next t ∧ t.fb ≠ s.fb := ⟨noReset_of (by decide), _, rfl, by decide⟩

theorem test_witness_InitSendsTheWholeStream :
    let s := placed (List.replicate 22 .accept ++ [cmd 0x30000000#32]) State.reset
    faulted s = false ∧ s.inputs = List.replicate 22 .accept ++ [cmd 0x30000000#32] := by decide

/-- At the first transfer never accepted, and at the last. -/
theorem test_witness_InitHangsAtTheTransferNeverAccepted :
    faulted State.reset = false ∧ State.reset.inputs = List.replicate 0 .accept ∧
    (placed (List.replicate 21 .accept) State.reset).inputs = List.replicate 21 .accept ∧ 21 < 22 := by decide

theorem test_witness_InitDoneIsSetByTheLastInitTransferOnly :
    (let s := placed [.accept] { State.reset with seq := .init 21 }
     initDone s = false ∧ ∃ t, step s = .next t ∧ initDone t = true) ∧
    (initDone ready = true ∧ noReset ready ∧ ∃ t, step ready = .next t) :=
  ⟨⟨by decide, _, rfl, rfl⟩, by decide, noReset_of (by decide), _, rfl⟩

theorem test_witness_RenderChecksBeforeAnyTransfer :
    (faulted State.reset = false ∧ initDone State.reset = false) ∧
    (faulted ready = false ∧ initDone ready = true ∧ (1025#16).toNat ≠ 1024 ∧ (1023#16).toNat ≠ 1024) ∧
    (let s := { State.reset with status := 0x00000001#32, defd := [(0, 0xFF#8), (1, 0xFE#8)] }
     faulted s = false ∧ initDone s = true ∧ (1024#16).toNat = 1024 ∧ defByte s 1 ≠ 0xFF#8 ∧
       ∀ j, j < 1 → defByte s j = 0xFF#8) := by decide

theorem test_witness_RenderSendsTheWholeFrame :
    faulted ready = false ∧ initDone ready = true ∧ allDefined ready ∧
    (placed (List.replicate 32 .accept ++ []) ready).inputs = List.replicate 32 .accept ++ [] :=
  ⟨by decide, by decide, ready_allDefined, by decide⟩

theorem test_witness_NoFramebufferChangeWhileACommandRuns :
    (let s := placed [.accept] { ready with seq := .render 7 3 }
     s.seq ≠ .idle ∧ noReset s ∧ ∃ t, step s = .next t) ∧
    (let s := placed [.accept] { State.reset with seq := .init 0 }
     s.seq ≠ .idle ∧ noReset s ∧ ∃ t, step s = .next t) :=
  ⟨⟨by decide, noReset_of (by decide), _, rfl⟩, by decide, noReset_of (by decide), _, rfl⟩

/-- The last byte of the frame, and the last column of the last page. -/
theorem test_witness_FrameCarriesEachByteOnce : 1023 < 1024 ∧ 4 * (1023 / 128) + 3 = 31 ∧ 1 + 1023 % 128 = 128 := by decide

theorem test_witness_ControllerImageIsTheFramebuffer : 7 < 8 ∧ 127 < 128 := by decide

/-- One step with an acceptance in a command, and one without. -/
theorem test_witness_TraceGrowsByOneAcceptedTransfer :
    (let s := placed [.accept] { ready with seq := .render 0 0 }
     s.seq ≠ .idle ∧ s.inputs.head? = some .accept ∧ ∃ t, step s = .next t) ∧
    (∃ t, step (placed [.accept] ready) = .next t) := ⟨⟨by decide, by decide, _, rfl⟩, _, rfl⟩

theorem test_witness_StepKeepsStatusLegal :
    statusLegal latched.status ∧ statusLegal ready.status ∧ ∃ t, step (placed [cmd 0x00000000#32] ready) = .next t :=
  ⟨⟨by decide, by decide, by decide⟩, ⟨by decide, by decide, by decide⟩, _, rfl⟩

theorem test_witness_StepKeepsMemoryCanonical :
    memoryLegal (placed [cmd 0x10013F7F#32] (with133 0x40#8)) ∧
    ∃ t, step (placed [cmd 0x10013F7F#32] (with133 0x40#8)) = .next t := ⟨⟨rfl, rfl, rfl, rfl⟩, _, rfl⟩

theorem test_witness_StepKeepsUndefinedBitsEmpty :
    undefinedBitsEmpty (placed [cmd 0x10013F7F#32] State.reset) ∧
    ∃ t, step (placed [cmd 0x10013F7F#32] State.reset) = .next t :=
  ⟨fun i => by simp [fbByte, defByte, placed, State.reset], _, rfl⟩

theorem test_witness_EveryTransferHasALegalShape :
    let s := placed [.accept] { State.reset with seq := .init 0, trace := [cmdTransfer 0xAE#8] }
    traceLegal s ∧ ∃ t, step s = .next t :=
  ⟨by intro t ht; rw [List.mem_singleton.mp ht]; exact ⟨rfl, .inl ⟨_, rfl⟩⟩, _, rfl⟩

/-- In every position: idle, INIT and RENDER. -/
theorem test_witness_RenderInProgressHasADefinedFrame :
    commandLegal (placed [.accept] { ready with seq := .render 7 3 }) ∧ commandLegal { State.reset with seq := .init 21 } ∧
    commandLegal State.reset ∧ ∃ t, step (placed [.accept] { ready with seq := .render 7 3 }) = .next t :=
  ⟨⟨by decide, by decide, placed_allDefined _ _⟩, by unfold commandLegal; decide, trivial, _, rfl⟩

theorem test_witness_WrittenBitsStayDefinedUntilReset :
    (let s := placed [cmd 0x10000D05#32] (with133 0x40#8)
     noReset s ∧ (defByte s 133).getLsbD 7 = true ∧ ∃ t, step s = .next t) ∧ allDefined cleared :=
  ⟨⟨noReset_of (by decide), by decide, _, rfl⟩, cleared_allDefined⟩

/-- Two states that differ in one value bit never written; one answers a next state, one stops. -/
theorem test_witness_UndefinedBitsInfluenceNothing :
    (let s := placed [cmd 0x10010000#32] State.reset
     let s' := { s with fb := [(0, 0x80#8)] }
     agreeOnDefined s s' ∧ commandLegal s ∧ s ≠ s' ∧ ∃ t, step s = .next t) ∧
    (let s := placed [.host (.read 0x400#11 1)] State.reset
     agreeOnDefined s { s with fb := [(0, 0x80#8)] } ∧ commandLegal s ∧ step s = .fault (.uninit 0)) := by
  refine ⟨⟨⟨rfl, fun i => ?_⟩, trivial, by decide, _, rfl⟩, ⟨rfl, fun i => ?_⟩, trivial, rfl⟩ <;>
    simp [fbByte, defByte, placed, State.reset]

end Sys2Proof.Tests
end

section
/-! The proofs about the state (10_state.md): STATUS, the two memories, the glyph registers, pixel addressing, and the bits
never written. First the laws each part needs, then the statements. -/

namespace Sys2Proof.Machine

/-! ### What a Host access can do, by its direction -/

/-- A read that answers a next state has returned one value. -/
theorem hostAccess_read_cases {a : Offset} {n : Nat} {s t : State} (h : hostAccess (.read a n) s = .next t) :
    ∃ w, t = answerRead w s := by
  simp only [hostAccess] at h
  split at h
  · split at h
    · cases h; exact ⟨_, rfl⟩
    · unfold windowRead at h
      split at h
      · cases h
      · cases h; exact ⟨_, rfl⟩
  · cases h

/-- An admitted access at a register's offset is one word wide (R55). -/
theorem admitted_regOffset {r : Reg} {n : Nat} (h : admitted (regOffset r) n = true) : n = 4 := by
  have hlt : (regOffset r).toNat < 0x01C := by cases r <;> decide
  rcases (admitted_iff _ n).mp h with ⟨-, hn, -⟩ | ⟨hge, -, -⟩
  · exact hn
  · omega

/-- A write that answers a next state was a word write of a register, or a window write, which has no effect (R56). -/
theorem hostAccess_write_cases {a : Offset} {n : Nat} {v : Word} {s t : State} (h : hostAccess (.write a n v) s = .next t) :
    (∃ r, a = regOffset r ∧ n = 4 ∧ regWrite r v s = .next t) ∨ t = s := by
  simp only [hostAccess] at h
  split at h
  · next ha =>
    split at h
    · next r hr =>
      obtain rfl := regAt_offset hr
      exact .inl ⟨r, rfl, admitted_regOffset ha, h⟩
    · cases h; exact .inr rfl
  · cases h

/-! ### STATUS (R27) -/

/-- `raise Error` touches no reserved bit of STATUS. -/
theorem reservedBits_statusRaise (st : Word) (c : BitVec 4) :
    statusRaise st c &&& 0xFFFFFF0C#32 = st &&& 0xFFFFFF0C#32 := by
  refine BitVec.eq_of_getLsbD_eq fun i hi => ?_
  rw [BitVec.getLsbD_and, BitVec.getLsbD_and, statusRaise_bit]
  interval_cases i <;> simp

/-- Setting INIT_DONE touches no reserved bit of STATUS. -/
theorem reservedBits_statusSetInitDone (st : Word) :
    statusSetInitDone st &&& 0xFFFFFF0C#32 = st &&& 0xFFFFFF0C#32 := by
  refine BitVec.eq_of_getLsbD_eq fun i hi => ?_
  rw [BitVec.getLsbD_and, BitVec.getLsbD_and, statusSetInitDone_bit]
  interval_cases i <;> simp

theorem statusLegal_zero : statusLegal 0#32 := ⟨by decide, by decide, by decide⟩

theorem statusLegal_statusRaise {st : Word} (h : statusLegal st) (c : ErrCode) : statusLegal (statusRaise st c.code) := by
  obtain ⟨hres, -, -⟩ := h
  refine ⟨(reservedBits_statusRaise st c.code).trans hres, ?_, ?_⟩
  · rw [statusErrCode_raise]; cases c <;> decide
  · rw [statusErrCode_raise, statusFault_raise]; cases c <;> decide

theorem statusLegal_statusSetInitDone {st : Word} (h : statusLegal st) : statusLegal (statusSetInitDone st) := by
  obtain ⟨hres, hcode, hfault⟩ := h
  refine ⟨(reservedBits_statusSetInitDone st).trans hres, ?_, ?_⟩
  · rwa [statusErrCode_setInitDone]
  · rwa [statusFault_setInitDone, statusErrCode_setInitDone]

theorem CommandEffect.status_cases {i : Instr} {s t : State} (h : CommandEffect i s t) :
    t.status = s.status ∨ ∃ c : ErrCode, t.status = statusRaise s.status c.code := by
  cases h with
  | rejected _ c => exact .inr ⟨c, rfl⟩
  | glyph => exact .inl (writeBytes_status _ _ _)
  | _ => exact .inl rfl

theorem AccessEffect.status_cases {acc : Access} {s t : State} (h : AccessEffect acc s t) :
    t.status = s.status ∨ ∃ c : ErrCode, t.status = statusRaise s.status c.code := by
  cases h with
  | illegal => exact .inr ⟨.illegalCmd, rfl⟩
  | command i h => exact h.status_cases
  | _ => exact .inl rfl

theorem acceptTransfer_status_cases (s : State) :
    (acceptTransfer s).status = s.status ∨ (acceptTransfer s).status = statusSetInitDone s.status := by
  rcases acceptTransfer_cases s with ⟨-, e⟩ | ⟨k, bytes, -, -, e⟩ | ⟨p, j, bytes, -, -, e⟩ <;> rw [e]
  · exact .inl rfl
  · dsimp only
    split
    · exact .inr rfl
    · exact .inl rfl
  · exact .inl rfl

/-- The four things a step can do to STATUS: keep it, reset it, record an error, set INIT_DONE. -/
theorem step_status_cases {s t : State} (h : step s = .next t) :
    t.status = s.status ∨ t.status = 0#32 ∨ (∃ c : ErrCode, t.status = statusRaise s.status c.code) ∨
      t.status = statusSetInitDone s.status := by
  cases step_effect h with
  | waits => exact .inl rfl
  | reset => exact .inr (.inl rfl)
  | accept rest => exact (acceptTransfer_status_cases { s with inputs := rest }).imp_right fun e => .inr (.inr e)
  | host acc rest _ _ ht => exact ht.status_cases.imp_right fun e => .inr (.inl e)

/-- Settles O49: each of the four things a step can do to STATUS keeps it legal. -/
theorem stepKeepsStatusLegal : Obligations.StepKeepsStatusLegal := by
  intro s t hs h
  rcases step_status_cases h with e | e | ⟨c, e⟩ | e <;> rw [e]
  · exact hs
  · exact statusLegal_zero
  · exact statusLegal_statusRaise hs c
  · exact statusLegal_statusSetInitDone hs

/-! ### The two memories (R21, R24) -/

/-- What a step other than a reset can do to FB and DEF. -/
inductive MemoryEffect (s : State) : State → Prop
  | kept {t : State} (hfb : t.fb = s.fb) (hdef : t.defd = s.defd) : MemoryEffect s t
  | pixel (i b : Nat) (val : Bool) (hi : i < 1024) : MemoryEffect s (writeBit i b val s)
  | glyph (base : Nat) (l : List Byte) (hl : base + l.length ≤ 1024) : MemoryEffect s (writeBytes base l s)
  | cleared : MemoryEffect s (fillFramebuffer 0#8 s)

theorem CommandEffect.memory {i : Instr} {s t : State} (h : CommandEffect i s t) : MemoryEffect s t := by
  cases h with
  | pixel _ x y val hl =>
    obtain ⟨hx, hy⟩ := (pixelLegal_iff x y).mp hl
    exact .pixel _ _ val (byteIdx_lt hx hy)
  | glyph _ x y hl => exact .glyph _ _ (by rw [glyph_length]; exact originLegal_lt hl)
  | cleared => exact .cleared
  | _ => exact .kept rfl rfl

theorem AccessEffect.memory {acc : Access} {s t : State} (h : AccessEffect acc s t) : MemoryEffect s t := by
  cases h with
  | command i h => exact h.memory
  | _ => exact .kept rfl rfl

/-- An acceptance changes neither a memory nor a glyph register. -/
theorem acceptTransfer_frame (s : State) :
    (acceptTransfer s).fb = s.fb ∧ (acceptTransfer s).defd = s.defd ∧
    (acceptTransfer s).glyphLo = s.glyphLo ∧ (acceptTransfer s).glyphHi = s.glyphHi := by
  rcases acceptTransfer_cases s with ⟨-, e⟩ | ⟨k, bytes, -, -, e⟩ | ⟨p, j, bytes, -, -, e⟩ <;> rw [e] <;>
    exact ⟨rfl, rfl, rfl, rfl⟩

/-- A step is a reset, or does one of the four memory effects, with at most one move taken first. -/
theorem step_memory_cases {s t : State} (h : step s = .next t) :
    (∃ rest, s.inputs = .reset :: rest ∧ t = applyReset { s with inputs := rest }) ∨
    (∃ rest, MemoryEffect { s with inputs := rest } t) := by
  cases step_effect h with
  | waits => exact .inr ⟨s.inputs, .kept rfl rfl⟩
  | reset rest hr => exact .inl ⟨rest, hr, rfl⟩
  | accept rest =>
    obtain ⟨hfb, hdef, -, -⟩ := acceptTransfer_frame { s with inputs := rest }
    exact .inr ⟨rest, .kept hfb hdef⟩
  | host acc rest _ _ ht => exact .inr ⟨rest, ht.memory⟩

/-- What a reset establishes of the memories and every memory effect keeps, a step keeps.
The two invariants of the memories are this rule at their predicate. -/
theorem step_keeps_of_memoryEffect {P : State → Prop} (hinputs : ∀ s rest, P s → P { s with inputs := rest })
    (hreset : ∀ s, P (applyReset s)) (heffect : ∀ s t, P s → MemoryEffect s t → P t) {s t : State} (hs : P s)
    (h : step s = .next t) : P t := by
  rcases step_memory_cases h with ⟨rest, -, rfl⟩ | ⟨rest, ht⟩
  · exact hreset _
  · exact heffect _ _ (hinputs s rest hs) ht

theorem MemoryEffect.memoryLegal {s t : State} (hs : memoryLegal s) (h : MemoryEffect s t) : memoryLegal t := by
  cases h with
  | kept hfb hdef => unfold Machine.memoryLegal; rw [hfb, hdef]; exact hs
  | pixel i b val hi => exact memoryLegal_writeBit hs hi b val
  | glyph base l hl => exact memoryLegal_writeBytes hs hl
  | cleared => exact memoryLegal_fillFramebuffer _ s

/-- Settles O50: a reset empties both memories, and every memory effect keeps them canonical and in range. -/
theorem stepKeepsMemoryCanonical : Obligations.StepKeepsMemoryCanonical := fun _ _ hs h =>
  step_keeps_of_memoryEffect (P := memoryLegal) (fun _ _ hs => hs) (fun _ => memoryLegal_reset)
    (fun _ _ hs ht => ht.memoryLegal hs) hs h

/-! ### Bits never written (R24) -/

/-- No value without definedness, bit by bit. -/
theorem undefinedBitsEmpty_iff (s : State) : undefinedBitsEmpty s ↔
    ∀ i b, b < 8 → (fbByte s i).getLsbD b = true → (defByte s i).getLsbD b = true := by
  refine forall_congr' fun i => ⟨fun h b hb hfb => ?_, fun h => BitVec.eq_of_getLsbD_eq fun b hb => ?_⟩
  · have hbit := congrArg (·.getLsbD b) h
    simpa [hb, hfb] using hbit
  · have hbit := h b hb
    simpa [hb] using hbit

theorem undefinedBitsEmpty_applyReset (s : State) : undefinedBitsEmpty (applyReset s) := fun i => by
  simp [fbByte, defByte]

theorem MemoryEffect.undefinedBitsEmpty {s t : State} (hs : undefinedBitsEmpty s) (h : MemoryEffect s t) :
    undefinedBitsEmpty t := by
  rw [undefinedBitsEmpty_iff] at hs ⊢
  intro j c hc hbit
  cases h with
  | kept hfb hdef =>
    rw [defByte, hdef]
    rw [fbByte, hfb] at hbit
    exact hs j c hc hbit
  | pixel i b val hi =>
    rw [writeBit_fb_bit _ _ _ _ _ hc] at hbit
    rw [writeBit_def_bit _ _ _ _ _ hc]
    split
    · rfl
    · next hne => exact hs j c hc (by rwa [if_neg hne] at hbit)
  | glyph base l hl =>
    rw [fbByte_writeBytes] at hbit
    rw [defByte_writeBytes]
    split
    · exact (byte_eq_ff_iff _).mp rfl c hc
    · next hne => exact hs j c hc (by rwa [if_neg hne] at hbit)
  | cleared =>
    rw [fbByte_fillFramebuffer, ite_self, BitVec.getLsbD_zero] at hbit
    cases hbit

/-- Settles O51: no memory effect stores a value bit without defining it. -/
theorem stepKeepsUndefinedBitsEmpty : Obligations.StepKeepsUndefinedBitsEmpty := fun _ _ hs h =>
  step_keeps_of_memoryEffect (P := undefinedBitsEmpty) (fun _ _ hs => hs) undefinedBitsEmpty_applyReset
    (fun _ _ hs ht => ht.undefinedBitsEmpty hs) hs h

/-- No memory effect makes a written bit of the index space unwritten again. -/
theorem MemoryEffect.keeps_defined {s t : State} (h : MemoryEffect s t) {i b : Nat} (hi : i < 1024)
    (hd : (defByte s i).getLsbD b = true) : (defByte t i).getLsbD b = true := by
  have hb : b < 8 := BitVec.lt_of_getLsbD hd
  cases h with
  | kept hfb hdef => rw [defByte, hdef]; exact hd
  | pixel j c val _ =>
    rw [writeBit_def_bit _ _ _ _ _ hb]
    split
    · rfl
    · exact hd
  | glyph base l _ =>
    rw [defByte_writeBytes]
    split
    · exact (byte_eq_ff_iff _).mp rfl b hb
    · exact hd
  | cleared =>
    rw [defByte_fillFramebuffer, if_pos (show i < Geom.fbBytes from hi)]
    exact (byte_eq_ff_iff _).mp rfl b hb

/-- Only a Host access with the Block idle stops a step. -/
theorem step_fault {s : State} {f : Fault} (h : step s = .fault f) :
    ∃ acc rest, s.inputs = .host acc :: rest ∧ s.seq = .idle ∧ hostAccess acc { s with inputs := rest } = .fault f := by
  unfold step at h
  split at h
  · cases h
  · cases h
  · cases h
  · next acc rest hi =>
    split at h
    · next hs => exact ⟨acc, rest, hi, hs, h⟩
    · cases h

theorem step_not_uninit_of_allDefined {s : State} (hs : allDefined s) (i : Nat) : step s ≠ .fault (.uninit i) := by
  intro h
  obtain ⟨acc, rest, -, -, hacc⟩ := step_fault h
  rcases hostAccess_fault hacc with ⟨j, -, hundef, hj⟩ | ⟨a, n, hf, -, -⟩
  · have hdef : byteDefined { s with inputs := rest } j = true := hs j hj
    rw [hdef] at hundef
    cases hundef
  · cases hf

/-- Settles O54: without a reset every memory effect keeps written bits written, and F_UNINIT names an unwritten byte. -/
theorem writtenBitsStayDefinedUntilReset : Obligations.WrittenBitsStayDefinedUntilReset := by
  refine fun s => ⟨fun t h hnr i b hi hd => ?_, step_not_uninit_of_allDefined⟩
  rcases step_memory_cases h with ⟨rest, hr, -⟩ | ⟨rest, ht⟩
  · exact absurd (by rw [hr]; rfl) hnr
  · exact ht.keeps_defined hi hd

/-! ### Never-written bits influence nothing (R24, R25) -/

/-- A part of a step that neither reads nor writes FB, and leaves DEF, keeps the agreement. -/
theorem agreeOnDefined.update {s s' : State} (h : agreeOnDefined s s') {f : State → State}
    (hcomm : ∀ m, f { s with fb := m } = { f s with fb := m }) (hfb : (f s).fb = s.fb) (hdef : (f s).defd = s.defd) :
    agreeOnDefined (f s) (f s') := by
  obtain ⟨hs', hbits⟩ := h
  have he : f s' = { f s with fb := s'.fb } := by rw [hs']; exact hcomm _
  have hfb' : (f s').fb = s'.fb := by rw [he]
  have hdef' : (f s').defd = s'.defd := by rw [he, hs']; exact hdef
  refine ⟨by rw [hfb']; exact he, fun i => ?_⟩
  unfold fbByte defByte
  rw [hfb, hdef, hfb', hdef']
  exact hbits i

theorem agreeOnDefined.refl (s : State) : agreeOnDefined s s := ⟨rfl, fun _ => rfl⟩

/-- Two states that agree on the defined bits hold the same defined bits. -/
theorem agreeOnDefined_iff {s s' : State} : agreeOnDefined s s' ↔ s' = { s with fb := s'.fb } ∧
    ∀ i b, b < 8 → (defByte s i).getLsbD b = true → (fbByte s i).getLsbD b = (fbByte s' i).getLsbD b := by
  refine and_congr_right fun hs' => forall_congr' fun i => ?_
  have hdef : defByte s' i = defByte s i := by rw [hs']; rfl
  rw [hdef]
  refine ⟨fun h b hb hd => ?_, fun h => BitVec.eq_of_getLsbD_eq fun b hb => ?_⟩
  · have hbit := congrArg (·.getLsbD b) h
    simpa [hd] using hbit
  · rw [BitVec.getLsbD_and, BitVec.getLsbD_and]
    cases hd : (defByte s i).getLsbD b with
    | true => rw [h b hb hd]
    | false => rw [Bool.and_false, Bool.and_false]

section
variable {s s' : State} (h : agreeOnDefined s s')
include h

theorem agreeOnDefined.inputs : s'.inputs = s.inputs := by rw [h.1]
theorem agreeOnDefined.seq : s'.seq = s.seq := by rw [h.1]
theorem agreeOnDefined.faulted : faulted s' = faulted s := by rw [h.1]; rfl
theorem agreeOnDefined.initDone : initDone s' = initDone s := by rw [h.1]; rfl
theorem agreeOnDefined.glyph : glyph s' = glyph s := by rw [h.1]; rfl
theorem agreeOnDefined.regRead (r : Reg) : regRead r s' = regRead r s := by rw [h.1]; cases r <;> rfl
theorem agreeOnDefined.firstUndefined (lo n : Nat) : firstUndefined s' lo n = firstUndefined s lo n := by rw [h.1]; rfl
theorem agreeOnDefined.frameUndefined : frameUndefined s' = frameUndefined s := by
  rw [frameUndefined_eq, frameUndefined_eq, h.firstUndefined]

/-- A byte that is defined reads alike. -/
theorem agreeOnDefined.fbByte {i : Nat} (hd : byteDefined s i = true) : fbByte s' i = fbByte s i := by
  refine BitVec.eq_of_getLsbD_eq fun b hb => ?_
  have hbit : (defByte s i).getLsbD b = true := (byte_eq_ff_iff _).mp ((byteDefined_iff s i).mp hd) b hb
  exact ((agreeOnDefined_iff.mp h).2 i b hb hbit).symm

/-- A page of a fully defined framebuffer is sent alike. -/
theorem agreeOnDefined.pageBytes (hd : allDefined s) (p : Fin 8) : pageBytes s' p = pageBytes s p := by
  refine List.map_congr_left fun x hx => h.fbByte (hd _ ?_)
  have hx := List.mem_range.mp hx
  have hp := p.isLt
  simp only [Geom.W, Geom.fbBytes] at hx ⊢
  omega

/-! The operations of a step keep the agreement, or answer the same state. -/

theorem agreeOnDefined.withInputs (l : List Input) : agreeOnDefined { s with inputs := l } { s' with inputs := l } :=
  h.update (f := fun s => { s with inputs := l }) (fun _ => rfl) rfl rfl

theorem agreeOnDefined.withSeq (q : Seq) : agreeOnDefined { s with seq := q } { s' with seq := q } :=
  h.update (f := fun s => { s with seq := q }) (fun _ => rfl) rfl rfl

theorem agreeOnDefined.raiseError (c : ErrCode) (v : Word) : agreeOnDefined (raiseError c v s) (raiseError c v s') :=
  h.update (f := Machine.raiseError c v) (fun _ => rfl) rfl rfl

theorem agreeOnDefined.answerRead (v : Word) : agreeOnDefined (answerRead v s) (answerRead v s') :=
  h.update (f := Machine.answerRead v) (fun _ => rfl) rfl rfl

theorem agreeOnDefined.sendInit (k : Fin 22) : agreeOnDefined (sendInit k s) (sendInit k s') :=
  h.update (f := Machine.sendInit k) (fun _ => rfl) rfl rfl

theorem agreeOnDefined.sendRender (hd : allDefined s) (p : Fin 8) (j : Fin 4) :
    agreeOnDefined (sendRender p j s) (sendRender p j s') := by
  refine agreeOnDefined.withSeq ?_ (renderNext p j)
  unfold sendPage
  split
  · exact h.update (f := sendCmd _) (fun _ => rfl) rfl rfl
  · exact h.update (f := sendCmd _) (fun _ => rfl) rfl rfl
  · exact h.update (f := sendCmd _) (fun _ => rfl) rfl rfl
  · rw [h.pageBytes hd]
    exact h.update (f := sendData _) (fun _ => rfl) rfl rfl

theorem agreeOnDefined.applyReset : applyReset s' = applyReset s := by rw [h.1]; rfl

theorem agreeOnDefined.writeBit (i b : Nat) (val : Bool) : agreeOnDefined (writeBit i b val s) (writeBit i b val s') := by
  obtain ⟨hs', hbits⟩ := agreeOnDefined_iff.mp h
  refine agreeOnDefined_iff.mpr ⟨by rw [hs']; rfl, fun j c hc hd => ?_⟩
  rw [writeBit_fb_bit _ _ _ _ _ hc, writeBit_fb_bit _ _ _ _ _ hc]
  rw [writeBit_def_bit _ _ _ _ _ hc] at hd
  split
  · rfl
  · next hne => exact hbits j c hc (by rwa [if_neg hne] at hd)

theorem agreeOnDefined.writeByte (i : Nat) (v : Byte) : agreeOnDefined (writeByte i v s) (writeByte i v s') := by
  obtain ⟨hs', hbits⟩ := h
  refine ⟨by rw [hs']; rfl, fun j => ?_⟩
  rw [fbByte_writeByte, fbByte_writeByte, defByte_writeByte, defByte_writeByte]
  split
  · rfl
  · exact hbits j

theorem agreeOnDefined.writeBytes (base : Nat) (l : List Byte) : agreeOnDefined (writeBytes base l s) (writeBytes base l s') := by
  induction l generalizing base s s' with
  | nil => exact h
  | cons v rest ih => exact ih (h.writeByte base v) (base + 1)

theorem agreeOnDefined.fillFramebuffer (v : Byte) : fillFramebuffer v s' = fillFramebuffer v s := by
  rw [h.1]; rfl

end

/-- Two outcomes are the same stop, or next states that differ at most in bits never written. -/
inductive AgreeOutcome : Outcome → Outcome → Prop
  | next {t t' : State} (h : agreeOnDefined t t') : AgreeOutcome (.next t) (.next t')
  | fault (f : Fault) : AgreeOutcome (.fault f) (.fault f)
  | refused (r : Refusal) : AgreeOutcome (.refused r) (.refused r)

section
variable {s s' : State} (h : agreeOnDefined s s')
include h

theorem issue_agree {k : State → Outcome} (hk : AgreeOutcome (k s) (k s')) : AgreeOutcome (issue s k) (issue s' k) := by
  rw [issue, issue, h.faulted]
  split
  · exact .next h
  · exact hk

theorem execSetPixel_agree (x y : BitVec 8) (val : Bool) :
    AgreeOutcome (execSetPixel x y val s) (execSetPixel x y val s') := by
  refine issue_agree h ?_
  split
  · exact .next (h.writeBit _ _ _)
  · exact .next (h.raiseError _ _)

theorem execDrawGlyph_agree (x y : BitVec 8) : AgreeOutcome (execDrawGlyph x y s) (execDrawGlyph x y s') := by
  refine issue_agree h ?_
  rw [h.glyph]
  split
  · exact .next (h.writeBytes _ _)
  · exact .next (h.raiseError _ _)

theorem execClear_agree : AgreeOutcome (execClear s) (execClear s') := by
  refine issue_agree h ?_
  rw [h.fillFramebuffer]
  exact .next (.refl _)

theorem execInit_agree : AgreeOutcome (execInit s) (execInit s') :=
  issue_agree h (.next (h.withSeq (.init 0)))

theorem execRender_agree (len : BitVec 16) : AgreeOutcome (execRender len s) (execRender len s') := by
  refine issue_agree h ?_
  rw [h.initDone, h.frameUndefined]
  split
  · exact .next (h.raiseError _ _)
  split
  · exact .next (h.raiseError _ _)
  split
  · exact .fault _
  · exact .next (h.withSeq _)

/-- A command does alike on both. -/
theorem exec_agree (i : Instr) : AgreeOutcome (exec i s) (exec i s') := by
  cases i with
  | setPixel x y val => exact execSetPixel_agree h x y val
  | drawGlyph x y => exact execDrawGlyph_agree h x y
  | clear => exact execClear_agree h
  | init => exact execInit_agree h
  | render len => exact execRender_agree h len

theorem execute_agree (v : Word) : AgreeOutcome (execute v s) (execute v s') := by
  unfold execute
  split
  · exact issue_agree h (.next (h.raiseError _ _))
  · exact exec_agree h _

/-- A window read returns defined bytes only (R25, R57). -/
theorem windowRead_agree (i n : Nat) : AgreeOutcome (windowRead i n s) (windowRead i n s') := by
  rw [windowRead, windowRead, h.firstUndefined]
  split
  · exact .fault _
  · next hnone =>
    have hdef := (firstUndefined_eq_none s i n).mp hnone
    have hbytes : (List.range n).map (fun k => fbByte s' (i + k)) = (List.range n).map (fun k => fbByte s (i + k)) :=
      List.map_congr_left fun k hk => h.fbByte (hdef k (List.mem_range.mp hk))
    rw [hbytes]
    exact .next (h.answerRead _)

theorem regWrite_agree (r : Reg) (v : Word) : AgreeOutcome (regWrite r v s) (regWrite r v s') := by
  cases r with
  | cmd => exact execute_agree h v
  | glyphLo => exact .next (h.update (f := fun s => { s with glyphLo := v }) (fun _ => rfl) rfl rfl)
  | glyphHi => exact .next (h.update (f := fun s => { s with glyphHi := v }) (fun _ => rfl) rfl rfl)
  | _ => exact .next h

theorem hostAccess_agree (acc : Access) : AgreeOutcome (hostAccess acc s) (hostAccess acc s') := by
  cases acc with
  | read a n =>
    unfold hostAccess
    dsimp only
    split
    · split
      · rw [h.regRead]; exact .next (h.answerRead _)
      · exact windowRead_agree h _ _
    · exact .fault _
  | write a n v =>
    unfold hostAccess
    dsimp only
    split
    · split
      · exact regWrite_agree h _ v
      · exact .next h
    · exact .fault _

/-- An acceptance sends alike: a RENDER in progress has no undefined bit left. -/
theorem acceptTransfer_agree (hc : commandLegal s) : agreeOnDefined (acceptTransfer s) (acceptTransfer s') := by
  rw [acceptTransfer, acceptTransfer, h.seq]
  split
  · exact h
  · exact h.sendInit _
  · next p j hq =>
    rw [commandLegal, hq] at hc
    obtain ⟨-, -, hd⟩ := hc
    exact h.sendRender hd p j

/-- A step does alike on both. -/
theorem step_agree (hc : commandLegal s) : AgreeOutcome (step s) (step s') := by
  rw [step, step, h.inputs]
  split
  · exact .next h
  · next rest _ =>
    rw [(h.withInputs rest).applyReset]
    exact .next (.refl _)
  · next rest _ => exact .next (acceptTransfer_agree (h.withInputs rest) hc)
  · next acc rest _ =>
    by_cases hs : s.seq = .idle
    · rw [if_pos hs, if_pos (h.seq.trans hs)]
      exact hostAccess_agree (h.withInputs rest) acc
    · rw [if_neg hs, if_neg (h.seq ▸ hs)]
      exact .next h

end

/-- Settles O55: both states step to agreeing outcomes. -/
theorem undefinedBitsInfluenceNothing : Obligations.UndefinedBitsInfluenceNothing := by
  intro s s' h hc
  have hstep := step_agree h hc
  refine ⟨fun t ht => ?_, fun f hf => ?_⟩
  · rw [ht] at hstep
    generalize step s' = o at hstep
    cases hstep with
    | next h' => exact ⟨_, rfl, h'⟩
  · rw [hf] at hstep
    generalize step s' = o at hstep
    cases hstep with
    | fault => rfl

/-! ### The glyph registers (R29, R33) -/

/-- No command changes a glyph register. -/
theorem CommandEffect.glyphRegisters {i : Instr} {s t : State} (h : CommandEffect i s t) :
    t.glyphLo = s.glyphLo ∧ t.glyphHi = s.glyphHi := by
  cases h with
  | glyph => exact ⟨writeBytes_glyphLo _ _ _, writeBytes_glyphHi _ _ _⟩
  | _ => exact ⟨rfl, rfl⟩

theorem execute_glyphRegisters {v : Word} {s t : State} (h : execute v s = .next t) :
    t.glyphLo = s.glyphLo ∧ t.glyphHi = s.glyphHi := by
  unfold execute at h
  split at h
  · unfold issue at h
    split at h <;> cases h <;> exact ⟨rfl, rfl⟩
  · exact (exec_effect h).glyphRegisters

/-- What a register write does to the glyph registers: each takes the words written to it and no other. -/
theorem regWrite_glyphRegisters {r : Reg} {v : Word} {s t : State} (h : regWrite r v s = .next t) :
    (t.glyphLo = s.glyphLo ∨ r = .glyphLo ∧ t.glyphLo = v) ∧ (t.glyphHi = s.glyphHi ∨ r = .glyphHi ∧ t.glyphHi = v) := by
  cases r with
  | cmd =>
    obtain ⟨hlo, hhi⟩ := execute_glyphRegisters h
    exact ⟨.inl hlo, .inl hhi⟩
  | glyphLo => cases h; exact ⟨.inr ⟨rfl, rfl⟩, .inl rfl⟩
  | glyphHi => cases h; exact ⟨.inl rfl, .inr ⟨rfl, rfl⟩⟩
  | _ => cases h; exact ⟨.inl rfl, .inl rfl⟩

/-- What a Host access does to the glyph registers. -/
theorem hostAccess_glyphRegisters {acc : Access} {s t : State} (h : hostAccess acc s = .next t) :
    (t.glyphLo = s.glyphLo ∨ ∃ v, acc = .write 0x00C#11 4 v ∧ t.glyphLo = v) ∧
    (t.glyphHi = s.glyphHi ∨ ∃ v, acc = .write 0x010#11 4 v ∧ t.glyphHi = v) := by
  cases acc with
  | read a n =>
    obtain ⟨w, rfl⟩ := hostAccess_read_cases h
    exact ⟨.inl rfl, .inl rfl⟩
  | write a n v =>
    rcases hostAccess_write_cases h with ⟨r, rfl, rfl, hw⟩ | rfl
    · obtain ⟨hlo, hhi⟩ := regWrite_glyphRegisters hw
      exact ⟨hlo.imp_right fun ⟨hr, ht⟩ => ⟨v, by rw [hr]; rfl, ht⟩,
        hhi.imp_right fun ⟨hr, ht⟩ => ⟨v, by rw [hr]; rfl, ht⟩⟩
    · exact ⟨.inl rfl, .inl rfl⟩

/-- Settles O25: of the moves but a reset, only a Host write to a glyph register changes it. -/
theorem glyphRegistersChangeOnlyByHostWrites : Obligations.GlyphRegistersChangeOnlyByHostWrites := by
  intro s t h hnr
  rcases noReset_effect h hnr with rfl | ⟨rest, -, rfl⟩ | ⟨acc, rest, hi, hs, -⟩
  · exact ⟨.inl rfl, .inl rfl⟩
  · obtain ⟨-, -, hlo, hhi⟩ := acceptTransfer_frame { s with inputs := rest }
    exact ⟨.inl hlo, .inl hhi⟩
  · rw [step_host hi hs] at h
    obtain ⟨hlo, hhi⟩ := hostAccess_glyphRegisters h
    exact ⟨hlo.imp_right fun ⟨v, ha, ht⟩ => ⟨v, rest, by rw [hi, ha], hs, ht⟩,
      hhi.imp_right fun ⟨v, ha, ht⟩ => ⟨v, rest, by rw [hi, ha], hs, ht⟩⟩

/-- `G[0..3]` are the bytes of GLYPH_LO (R29). -/
theorem glyphByte_lo (s : State) {k : Nat} (hk : k < 4) : glyphByte s k = s.glyphLo.extractLsb' (8 * k) 8 := by
  rw [glyphByte, if_pos hk, wordByte]

/-- `G[4..7]` are the bytes of GLYPH_HI (R29). -/
theorem glyphByte_hi (s : State) {k : Nat} (hk : 4 ≤ k) : glyphByte s k = s.glyphHi.extractLsb' (8 * (k - 4)) 8 := by
  rw [glyphByte, if_neg (by omega), wordByte]

/-- A write of each glyph register and then a read of each are four steps, and leave the two words in the registers. -/
theorem runsTo_write_read_glyphRegisters {s : State} {v w : Word} {rest : List Input} (hidle : s.seq = .idle)
    (hin : s.inputs = .host (.write 0x00C#11 4 v) :: .host (.write 0x010#11 4 w) :: .host (.read 0x00C#11 4) ::
      .host (.read 0x010#11 4) :: rest) :
    runsTo 4 s { s with inputs := rest, glyphLo := v, glyphHi := w, hostReads := s.hostReads ++ [v] ++ [w] } :=
  ⟨_, step_write_register (r := .glyphLo) (by decide) (by decide) hin hidle,
   _, step_write_register (r := .glyphHi) (by decide) (by decide) rfl hidle,
   _, step_read_register (r := .glyphLo) (by decide) (by decide) rfl hidle,
   _, step_read_register (r := .glyphHi) (by decide) (by decide) rfl hidle, rfl⟩

/-- Settles O24: the four accesses run one after the other, and `G[k]` is a byte of what they leave. -/
theorem glyphRegistersHoldTheGlyphBytes : Obligations.GlyphRegistersHoldTheGlyphBytes := by
  refine ⟨rfl, rfl, fun s v w rest hidle hin => ⟨_, runsTo_write_read_glyphRegisters hidle hin, ?_, ?_, ?_⟩⟩
  · exact List.append_assoc _ [v] [w]
  · exact fun k hk => glyphByte_lo _ hk
  · exact fun k hk _ => glyphByte_hi _ hk

/-! ### Pixel addressing (R22, R23) -/

/-- The pixel of bit `b` of framebuffer byte `i` (R23). -/
def pixelOf (i b : Nat) : BitVec 8 × BitVec 8 := (BitVec.ofNat 8 (i % 128), BitVec.ofNat 8 (i / 128 * 8 + b))

/-- The address of a legal pixel, undone by division (R23). -/
theorem byteIdx_bitIdx_inverse {x y : BitVec 8} (hx : x.toNat < 128) :
    byteIdx x y % 128 = x.toNat ∧ byteIdx x y / 128 * 8 + bitIdx y = y.toNat := by
  simp only [byteIdx, bitIdx, Geom.pageH, Geom.W]
  omega

theorem pixelOf_legal {i b : Nat} (hi : i < 1024) (hb : b < 8) :
    (pixelOf i b).1.toNat = i % 128 ∧ (pixelOf i b).2.toNat = i / 128 * 8 + b ∧ (pixelOf i b).2.toNat < 64 := by
  simp only [pixelOf, BitVec.toNat_ofNat]
  omega

/-- `pixelOf` is a right inverse of the addressing. -/
theorem pixelOf_address {i b : Nat} (hi : i < 1024) (hb : b < 8) :
    byteIdx (pixelOf i b).1 (pixelOf i b).2 = i ∧ bitIdx (pixelOf i b).2 = b := by
  obtain ⟨hx, hy, -⟩ := pixelOf_legal hi hb
  simp only [byteIdx, bitIdx, Geom.pageH, Geom.W, hx, hy]
  omega

/-- `pixelOf` is a left inverse of the addressing. -/
theorem pixelOf_byteIdx_bitIdx {x y : BitVec 8} (hx : x.toNat < 128) : pixelOf (byteIdx x y) (bitIdx y) = (x, y) := by
  obtain ⟨h1, h2⟩ := byteIdx_bitIdx_inverse (y := y) hx
  rw [pixelOf, h1, h2, BitVec.ofNat_toNat, BitVec.ofNat_toNat, BitVec.setWidth_eq, BitVec.setWidth_eq]

/-- Settles O26: `pixelOf` is the two-sided inverse of the pixel addressing. -/
theorem pixelsAreExactlyTheFramebufferBits : Obligations.PixelsAreExactlyTheFramebufferBits := by
  refine ⟨fun x y hx hy => ?_, fun i b hi hb => ⟨pixelOf i b, ?_, ?_⟩⟩
  · exact ⟨rfl, rfl, byteIdx_lt hx hy, Nat.mod_lt _ (by decide), byteIdx_bitIdx_inverse hx⟩
  · obtain ⟨hx, -, hy⟩ := pixelOf_legal hi hb
    exact ⟨by omega, hy, pixelOf_address hi hb⟩
  · rintro ⟨x, y⟩ ⟨hx, -, rfl, rfl⟩
    exact (pixelOf_byteIdx_bitIdx hx).symm

/-! ### Reset and the constant registers (R31, R32, R39) -/

theorem defByte_reset (i : Nat) : defByte State.reset i = 0#8 := rfl

/-- Settles O14: DEF is empty at reset, and every other value is the literal of R39. -/
theorem resetLeavesTheValuesOfTheSpec : Obligations.ResetLeavesTheValuesOfTheSpec := by
  refine ⟨fun i b => ?_, rfl, by decide, by decide, by decide, rfl, rfl, rfl, rfl, rfl, rfl, rfl⟩
  rw [defByte_reset, BitVec.getLsbD_zero]

/-- Settles O16: the reset state is the base case of each invariant. -/
theorem resetStateIsLegal : Obligations.ResetStateIsLegal where
  status := statusLegal_zero
  memory := memoryLegal_reset
  empty := undefinedBitsEmpty_applyReset State.reset
  command := trivial
  trace := by intro x hx; cases hx

/-- GEOM holds the geometry of R8, one byte per field (R31). -/
theorem geom_fields : (0x08084080#32).extractLsb' 0 8 = BitVec.ofNat 8 Geom.W ∧
    (0x08084080#32).extractLsb' 8 8 = BitVec.ofNat 8 Geom.H ∧
    (0x08084080#32).extractLsb' 16 8 = BitVec.ofNat 8 Geom.pageH ∧
    (0x08084080#32).extractLsb' 24 8 = BitVec.ofNat 8 Geom.numPages := by decide

/-- BUSCFG holds the protocol parameters of R9, bit 7 being reserved (R32). -/
theorem buscfg_fields : (0x4080023C#32).extractLsb' 0 7 = Bus.addr ∧ (0x4080023C#32).getLsbD 7 = false ∧
    (0x4080023C#32).extractLsb' 8 8 = Bus.colOffset ∧ (0x4080023C#32).extractLsb' 16 8 = Bus.cmdMarker ∧
    (0x4080023C#32).extractLsb' 24 8 = Bus.dataMarker := by decide

/-- Settles O20: each field of the two constants, their offsets, and that writes leave them. -/
theorem constantRegistersHoldTheParameters : Obligations.ConstantRegistersHoldTheParameters := by
  intro s
  obtain ⟨hw, hh, hpage, hpages⟩ := geom_fields
  obtain ⟨haddr, hzero, hcol, hcmd, hdata⟩ := buscfg_fields
  exact ⟨rfl, congrArg BitVec.toNat hw, congrArg BitVec.toNat hh, congrArg BitVec.toNat hpage,
    congrArg BitVec.toNat hpages, rfl, haddr, hzero, hcol, hcmd, hdata, by decide, by decide, fun _ => ⟨rfl, rfl⟩,
    rfl, rfl, rfl, rfl, rfl, rfl, rfl, rfl⟩

end Sys2Proof.Machine
end

section
/-! The proofs about the host port, the transfers and the framebuffer's writers (20_memory.md). First what one step does to
TRACE, then the Host's accesses: when they wait, which are admitted, and what reads and writes do. -/

namespace Sys2Proof.Machine

/-! ### TRACE (R40, R60 to R63) -/

/-- A command only starts or ends; it makes no transfer itself. -/
theorem CommandEffect.trace {i : Instr} {s t : State} (h : CommandEffect i s t) : t.trace = s.trace := by
  cases h with
  | glyph => exact writeBytes_trace _ _ _
  | _ => rfl

theorem AccessEffect.trace {acc : Access} {s t : State} (h : AccessEffect acc s t) : t.trace = s.trace := by
  cases h with
  | command i h => exact h.trace
  | _ => rfl

theorem acceptTransfer_idle {s : State} (h : s.seq = .idle) : acceptTransfer s = s := by
  rw [acceptTransfer, h]

/-- An acceptance with a command in progress puts one transfer of a legal shape at the end of TRACE. -/
theorem acceptTransfer_trace {s : State} (h : s.seq ≠ .idle) :
    ∃ x, transferLegal x ∧ (acceptTransfer s).trace = s.trace ++ [x] := by
  rcases acceptTransfer_cases s with ⟨hidle, -⟩ | ⟨k, bytes, -, hx, e⟩ | ⟨p, j, bytes, -, hx, e⟩
  · exact absurd hidle h
  · exact ⟨_, hx, by rw [e]; rfl⟩
  · exact ⟨_, hx, by rw [e]; rfl⟩

/-- A step appends one transfer of a legal shape when it is an acceptance in a command, and keeps TRACE otherwise. -/
theorem step_trace_cases {s t : State} (h : step s = .next t) :
    ((s.seq ≠ .idle ∧ s.inputs.head? = some .accept) ∧ ∃ x, transferLegal x ∧ t.trace = s.trace ++ [x]) ∨
    (¬ (s.seq ≠ .idle ∧ s.inputs.head? = some .accept) ∧ t.trace = s.trace) := by
  cases step_effect h with
  | waits hw =>
    refine .inr ⟨fun ⟨_, ha⟩ => ?_, rfl⟩
    rcases hw with hin | ⟨-, acc, rest, hin⟩ <;> rw [hin] at ha <;> cases ha
  | reset rest hin => exact .inr ⟨fun ⟨_, ha⟩ => (by rw [hin] at ha; cases ha), rfl⟩
  | accept rest hin =>
    by_cases hidle : s.seq = .idle
    · exact .inr ⟨fun ⟨hrun, _⟩ => hrun hidle, by rw [acceptTransfer_idle (s := { s with inputs := rest }) hidle]⟩
    · exact .inl ⟨⟨hidle, by rw [hin]; rfl⟩, acceptTransfer_trace (s := { s with inputs := rest }) hidle⟩
  | host acc rest _ hidle ht => exact .inr ⟨fun ⟨hrun, _⟩ => hrun hidle, ht.trace⟩

/-- Settles O52: the one transfer a step can append has a legal shape. -/
theorem everyTransferHasALegalShape : Obligations.EveryTransferHasALegalShape := by
  intro s t hs h
  unfold traceLegal
  rcases step_trace_cases h with ⟨-, x, hx, e⟩ | ⟨-, e⟩ <;> rw [e]
  · exact List.forall_mem_append.mpr ⟨hs, List.forall_mem_singleton.mpr hx⟩
  · exact hs

/-- Settles O47: the two cases of a step on TRACE are the two branches of the statement. -/
theorem traceGrowsByOneAcceptedTransfer : Obligations.TraceGrowsByOneAcceptedTransfer := by
  intro s t h
  rcases step_trace_cases h with ⟨hacc, x, -, e⟩ | ⟨hacc, e⟩
  · rw [if_pos hacc]; exact ⟨x, e⟩
  · rw [if_neg hacc]; exact e

/-! ### The Host waits (R67) -/

/-- With a command in progress, no move left or a Host access at the head leaves the state as it is. -/
theorem step_waits {s : State} (hrun : s.seq ≠ .idle)
    (hin : s.inputs = [] ∨ ∃ acc rest, s.inputs = .host acc :: rest) : step s = .next s := by
  unfold step
  rcases hin with hin | ⟨acc, rest, hin⟩ <;> rw [hin]
  exact if_neg hrun

/-- A state that steps to itself stays for ever. -/
theorem runsTo_self {s : State} (h : step s = .next s) (k : Nat) : runsTo k s s := by
  induction k with
  | zero => rfl
  | succ k ih => exact ⟨s, h, ih⟩

/-- An access that a step takes off the list was made with the Block idle. -/
theorem idle_of_access_taken {s t : State} {acc : Access} {rest : List Input} (hin : s.inputs = .host acc :: rest)
    (h : step s = .next t) (ht : t.inputs = rest) : s.seq = .idle := by
  by_contra hrun
  rw [step_waits hrun (.inr ⟨acc, rest, hin⟩)] at h
  cases h
  exact List.cons_ne_self _ _ (hin.symm.trans ht)

/-- Settles O8: a waiting state steps to itself, and an access that is made leaves `inputs`. -/
theorem hostWaitsWhileACommandRuns : Obligations.HostWaitsWhileACommandRuns :=
  ⟨fun k _ hrun hin => runsTo_self (step_waits hrun hin) k, fun _ _ _ _ hin h ht => idle_of_access_taken hin h ht⟩

/-! ### Admitted accesses (R55, R58) -/

/-- An access the table does not admit leaves the Host stuck. -/
theorem hostAccess_not_admitted {acc : Access} {a : Offset} {n : Nat} (hacc : acc = .read a n ∨ ∃ v, acc = .write a n v)
    (h : ¬ admitted a n = true) (s : State) : hostAccess acc s = .fault (.notAdmitted a n) := by
  rcases hacc with rfl | ⟨v, rfl⟩ <;> exact if_neg h

/-- An admitted access never leaves the Host stuck. -/
theorem hostAccess_admitted {acc : Access} {a : Offset} {n : Nat} (hacc : acc = .read a n ∨ ∃ v, acc = .write a n v)
    (h : admitted a n = true) (s : State) (a' : Offset) (n' : Nat) :
    hostAccess acc s ≠ .fault (.notAdmitted a' n') := by
  intro hfault
  rcases hostAccess_fault hfault with ⟨j, hf, -, -⟩ | ⟨b, m, -, hb, hacc'⟩
  · cases hf
  · have hsame : b = a ∧ m = n := by
      rcases hacc with rfl | ⟨v, rfl⟩ <;> rcases hacc' with e | ⟨w, e⟩ <;> cases e <;> exact ⟨rfl, rfl⟩
    obtain ⟨rfl, rfl⟩ := hsame
    rw [h] at hb
    cases hb

/-- Settles O18: the table of the statement is `admitted`, which decides between the two outcomes. -/
theorem admittedAccessesAreThoseOfTheTable : Obligations.AdmittedAccessesAreThoseOfTheTable := by
  intro s a n acc rest hin hidle hacc
  rw [step_host hin hidle]
  split
  · next h => exact hostAccess_admitted hacc ((admitted_iff a n).mpr h) _
  · next h => exact hostAccess_not_admitted hacc (fun ha => h ((admitted_iff a n).mp ha)) _

/-! ### Window reads (R51, R52, R57) -/

/-- An undefined byte of the range with only defined bytes of the range below it is the lowest one. -/
theorem firstUndefined_of_lowest {s : State} {lo n k : Nat} (hk : k < n) (hundef : defByte s (lo + k) ≠ 0xFF#8)
    (hbelow : ∀ j, j < k → defByte s (lo + j) = 0xFF#8) : firstUndefined s lo n = some (lo + k) := by
  cases hfirst : firstUndefined s lo n with
  | none => exact absurd ((byteDefined_iff s _).mp ((firstUndefined_eq_none s lo n).mp hfirst k hk)) hundef
  | some i =>
    obtain ⟨hlo, -, hi, hdef⟩ := firstUndefined_eq_some hfirst
    rcases Nat.lt_trichotomy i (lo + k) with hlt | rfl | hgt
    · have hdefi := hbelow (i - lo) (by omega)
      rw [show lo + (i - lo) = i by omega, ← byteDefined_iff, hi] at hdefi
      cases hdefi
    · rfl
    · exact absurd ((byteDefined_iff s _).mp (hdef (lo + k) (by omega) hgt)) hundef

/-- A window read stops at the lowest undefined byte. -/
theorem windowRead_undefined {s : State} {i n k : Nat} (hk : k < n) (hundef : defByte s (i + k) ≠ 0xFF#8)
    (hbelow : ∀ j, j < k → defByte s (i + j) = 0xFF#8) : windowRead i n s = .fault (.uninit (i + k)) := by
  rw [windowRead, firstUndefined_of_lowest hk hundef hbelow]

/-- The first byte is the low digit of a little-endian word, base 256 (R51). -/
theorem leWord_cons (b : Byte) (l : List Byte) : leWord (b :: l) = b.setWidth 32 + leWord l * 256#32 := by
  have hdisjoint : b.setWidth 32 &&& (leWord l <<< 8) = 0#32 := by
    refine BitVec.eq_of_getLsbD_eq fun j hj => ?_
    rw [BitVec.getLsbD_and, BitVec.getLsbD_setWidth, BitVec.getLsbD_shiftLeft]
    by_cases h : j < 8
    · simp [h]
    · simp [BitVec.getLsbD_of_ge b j (by omega)]
  rw [leWord, ← BitVec.add_eq_or_of_and_eq_zero _ _ hdisjoint, BitVec.shiftLeft_eq_mul_twoPow]
  rfl

/-- A little-endian word is the base-256 sum of its bytes, modulo the word (R51). -/
theorem leWord_eq_sum (f : Nat → Byte) (n : Nat) :
    leWord ((List.range n).map f) = BitVec.ofNat 32 (∑ k ∈ Finset.range n, (f k).toNat * 256 ^ k) := by
  induction n generalizing f with
  | zero => rfl
  | succ n ih =>
    have hsum : ∑ k ∈ Finset.range n, (f (k + 1)).toNat * 256 ^ (k + 1) =
        (∑ k ∈ Finset.range n, (f (k + 1)).toNat * 256 ^ k) * 256 := by
      rw [Finset.sum_mul]
      exact Finset.sum_congr rfl fun k _ => by rw [pow_succ, mul_assoc]
    rw [List.range_succ_eq_map, List.map_cons, List.map_map, leWord_cons, Function.comp_def, ih,
      Finset.sum_range_succ', hsum, pow_zero, mul_one, add_comm, BitVec.ofNat_add, BitVec.ofNat_mul,
      BitVec.ofNat_toNat]

/-- An aligned window read of defined bytes answers their little-endian word. -/
theorem hostAccess_window_defined {s : State} {i n : Nat} (hn : n = 1 ∨ n = 2 ∨ n = 4) (hal : i % n = 0) (hlt : i < 1024)
    (hdef : ∀ k, k < n → defByte s (i + k) = 0xFF#8) :
    hostAccess (.read (BitVec.ofNat 11 (0x400 + i)) n) s =
      .next (answerRead (leWord ((List.range n).map fun k => fbByte s (i + k))) s) :=
  (hostAccess_window hn hal hlt).trans (windowRead_defined hdef)

/-- Settles O22: the read answers the little-endian word of its bytes, which is their base-256 sum, or stops at the lowest
undefined one. -/
theorem windowReadAnswersTheBytesLittleEndian : Obligations.WindowReadAnswersTheBytesLittleEndian := by
  intro s i n rest hn hal hlt hidle hin
  rw [step_host hin hidle]
  refine ⟨fun hdef => ?_, fun k hk hundef hbelow => ?_⟩
  · rw [hostAccess_window_defined (s := { s with inputs := rest }) hn hal hlt hdef, leWord_eq_sum]
    rfl
  · rw [hostAccess_window hn hal hlt]
    exact windowRead_undefined hk hundef hbelow

theorem leWord_one (b : Byte) : leWord [b] = b.setWidth 32 := by simp [leWord]

theorem leWord_two (b c : Byte) : leWord [b, c] = b.setWidth 32 ||| c.setWidth 32 <<< 8 := by simp [leWord]

theorem leWord_four (b c d e : Byte) : leWord [b, c, d, e] =
    b.setWidth 32 ||| c.setWidth 32 <<< 8 ||| d.setWidth 32 <<< 16 ||| e.setWidth 32 <<< 24 := by
  simp only [leWord, BitVec.shiftLeft_or_distrib, ← BitVec.shiftLeft_add, BitVec.zero_shiftLeft, BitVec.or_zero,
    BitVec.or_assoc]

/-- Settles O23: each width answers the little-endian word of the same bytes. -/
theorem windowWidthsSeeTheSameBytes : Obligations.WindowWidthsSeeTheSameBytes := by
  refine ⟨fun s j hj hdef => ?_, fun s i hi hal hdef => ?_, fun s i hi hal hdef => ?_⟩
  · have hbytes : ∀ k, k < 1 → defByte s (j + k) = 0xFF#8 := fun k hk => by rwa [Nat.lt_one_iff.mp hk]
    rw [← leWord_one]
    exact hostAccess_window_defined (.inl rfl) (Nat.mod_one j) hj hbytes
  · rw [← leWord_two]
    exact hostAccess_window_defined (.inr (.inl rfl)) hal hi hdef
  · rw [← leWord_four]
    exact hostAccess_window_defined (.inr (.inr rfl)) hal hi hdef

/-! ### Commands written to `CMD` (R56, R64, R81) -/

theorem execute_of_decode {v : Word} {i : Instr} (h : decode v = .ok i) (s : State) : execute v s = exec i s := by
  rw [execute, h]

/-- Settles O7: the `CMD` port executes the word, and the word is its command. -/
theorem stepRunsTheDecodedCommand : Obligations.StepRunsTheDecodedCommand := fun _ _ _ _ hin hidle hdec =>
  (step_cmd hin hidle).trans (execute_of_decode hdec _)

/-- A command keeps both memories, or is one of the three framebuffer commands outside the fault state (R64). -/
theorem exec_memory_cases {i : Instr} {s t : State} (h : exec i s = .next t) :
    (t.fb = s.fb ∧ t.defd = s.defd) ∨
    (faulted s = false ∧ ((∃ x y val, i = .setPixel x y val) ∨ (∃ x y, i = .drawGlyph x y) ∨ i = .clear)) := by
  cases hf : faulted s with
  | true =>
    rw [exec_faulted hf] at h
    cases h
    exact .inl ⟨rfl, rfl⟩
  | false =>
    cases i with
    | setPixel x y val => exact .inr ⟨rfl, .inl ⟨x, y, val, rfl⟩⟩
    | drawGlyph x y => exact .inr ⟨rfl, .inr (.inl ⟨x, y, rfl⟩)⟩
    | clear => exact .inr ⟨rfl, .inr (.inr rfl)⟩
    | init => rcases execInit_cases h with ⟨-, rfl⟩ | ⟨-, rfl⟩ <;> exact .inl ⟨rfl, rfl⟩
    | render len =>
      rcases execRender_cases h with ⟨-, rfl⟩ | ⟨-, -, rfl⟩ | ⟨-, -, -, rfl⟩ | ⟨-, -, -, -, rfl⟩ <;>
        exact .inl ⟨rfl, rfl⟩

theorem execute_memory_cases {v : Word} {s t : State} (h : execute v s = .next t) :
    (t.fb = s.fb ∧ t.defd = s.defd) ∨
    (faulted s = false ∧ ∃ i, decode v = .ok i ∧
      ((∃ x y val, i = .setPixel x y val) ∨ (∃ x y, i = .drawGlyph x y) ∨ i = .clear)) := by
  cases hdec : decode v with
  | error e =>
    rw [execute, hdec] at h
    dsimp only [issue] at h
    split at h <;> cases h <;> exact .inl ⟨rfl, rfl⟩
  | ok i =>
    rw [execute_of_decode hdec] at h
    exact (exec_memory_cases h).imp_right fun ⟨hf, hi⟩ => ⟨hf, i, rfl, hi⟩

/-- A Host access keeps both memories, or writes `CMD`. -/
theorem hostAccess_memory_cases {acc : Access} {s t : State} (h : hostAccess acc s = .next t) :
    (t.fb = s.fb ∧ t.defd = s.defd) ∨ (∃ v, acc = .write 0x000#11 4 v ∧ execute v s = .next t) := by
  cases acc with
  | read a n =>
    obtain ⟨w, rfl⟩ := hostAccess_read_cases h
    exact .inl ⟨rfl, rfl⟩
  | write a n v =>
    rcases hostAccess_write_cases h with ⟨r, rfl, rfl, hw⟩ | rfl
    · cases r with
      | cmd => exact .inr ⟨v, rfl, hw⟩
      | _ => cases hw; exact .inl ⟨rfl, rfl⟩
    · exact .inl ⟨rfl, rfl⟩

/-- Settles O37: a changed memory leaves only a Host access, then only a `CMD` write, then only the three commands. -/
theorem framebufferChangesOnlyByItsCommands : Obligations.FramebufferChangesOnlyByItsCommands := by
  intro s t h hnr hchanged
  have hnot : ¬ (t.fb = s.fb ∧ t.defd = s.defd) := fun ⟨hfb, hdef⟩ => hchanged.elim (· hfb) (· hdef)
  rcases noReset_effect h hnr with rfl | ⟨rest, -, rfl⟩ | ⟨acc, rest, hin, hidle, -⟩
  · exact absurd ⟨rfl, rfl⟩ hnot
  · obtain ⟨hfb, hdef, -, -⟩ := acceptTransfer_frame { s with inputs := rest }
    exact absurd ⟨hfb, hdef⟩ hnot
  · rw [step_host hin hidle] at h
    obtain ⟨v, rfl, hv⟩ := (hostAccess_memory_cases h).resolve_left hnot
    obtain ⟨hf, i, hdec, hi⟩ := (execute_memory_cases hv).resolve_left hnot
    exact ⟨hf, hidle, v, i, rest, hin, hdec, hi⟩

/-! ### Addresses and registers (R26, R54, R56, R59) -/

/-- Settles O17: the offset is the distance from the base, where that is below 2048. -/
theorem hostAddressReachesItsOffset : Obligations.HostAddressReachesItsOffset := by
  refine ⟨fun a => ?_, fun addr h => ?_⟩
  · have ha := a.isLt
    rw [hostOffset, if_pos (by omega), Nat.add_sub_cancel_left, BitVec.ofNat_toNat, BitVec.setWidth_eq]
  · rw [hostOffset, if_neg (by omega)]

theorem regAt_regOffset (r : Reg) : regAt (regOffset r) = some r := by cases r <;> rfl

theorem admitted_regOffset_word (r : Reg) : admitted (regOffset r) 4 = true := by cases r <;> rfl

/-- A word read of any register with the Block idle answers its value and changes nothing else (R59). -/
theorem step_read_regOffset (r : Reg) {s : State} {rest : List Input} (hidle : s.seq = .idle)
    (hin : s.inputs = .host (.read (regOffset r) 4) :: rest) :
    step s = .next { s with inputs := rest, hostReads := s.hostReads ++ [regRead r s] } := by
  rw [step_read_register (admitted_regOffset_word r) (regAt_regOffset r) hin hidle]
  cases r <;> rfl

/-- A word write of any register with the Block idle is that register's (R56). -/
theorem step_write_regOffset (r : Reg) {s : State} {v : Word} {rest : List Input} (hidle : s.seq = .idle)
    (hin : s.inputs = .host (.write (regOffset r) 4 v) :: rest) : step s = regWrite r v { s with inputs := rest } :=
  step_write_register (admitted_regOffset_word r) (regAt_regOffset r) hin hidle

/-- An aligned window write with the Block idle has no effect (R56). -/
theorem step_write_window {s : State} {a : Offset} {n : Nat} {v : Word} {rest : List Input} (hidle : s.seq = .idle)
    (hwin : 0x400 ≤ a.toNat) (hn : n = 1 ∨ n = 2 ∨ n = 4) (hal : a.toNat % n = 0)
    (hin : s.inputs = .host (.write a n v) :: rest) : step s = .next { s with inputs := rest } :=
  (step_host hin hidle).trans (hostAccess_write_window ((admitted_iff a n).mpr (.inr ⟨hwin, hn, hal⟩)) hwin v _)

/-- The read-only registers ignore a write (R56). -/
theorem regWrite_readOnly {r : Reg} (hr : r ∈ [Reg.status, .errCmd, .geom, .buscfg]) (v : Word) (s : State) :
    regWrite r v s = .next s := by
  rcases (by simpa using hr : r = .status ∨ r = .errCmd ∨ r = .geom ∨ r = .buscfg) with rfl | rfl | rfl | rfl <;> rfl

/-- Settles O19: the statement's list is the offset and the value of each register of R26. -/
theorem registerReadsReturnTheCurrentValue : Obligations.RegisterReadsReturnTheCurrentValue := by
  intro s rest hidle e he hin
  have hreg : e ∈ [Reg.cmd, .status, .errCmd, .glyphLo, .glyphHi, .geom, .buscfg].map
      (fun r => (regOffset r, regRead r s)) := he
  obtain ⟨r, -, rfl⟩ := List.mem_map.mp hreg
  exact step_read_regOffset r hidle hin

/-- Settles O21: a register write is the register's, and a window write nothing. -/
theorem hostWritesReachOnlyTheirRegister : Obligations.HostWritesReachOnlyTheirRegister := by
  intro s v rest hidle
  refine ⟨step_write_regOffset .cmd hidle, step_write_regOffset .glyphLo hidle, step_write_regOffset .glyphHi hidle,
    fun a ha hin => ?_, fun a n hwin hn hal hin => step_write_window hidle hwin hn hal hin⟩
  have hreg : a ∈ [Reg.status, .errCmd, .geom, .buscfg].map regOffset := ha
  obtain ⟨r, hr, rfl⟩ := List.mem_map.mp hreg
  exact (step_write_regOffset r hidle hin).trans (regWrite_readOnly hr v _)

end Sys2Proof.Machine
end

section
/-! The proofs about the encoding (30_encoding.md). First what decode answers to a word each row selects and what the fields of
an encoding are, then the two round trips, the opcode map, the operands, and what an illegal word does. -/

namespace Sys2Proof

open Machine

/-! ### The decoder, row by row (R81, R84) -/

theorem decode_of_rowSetPixel {v : Word} (h : rowSetPixel.selects v = true) :
    decode v = .ok (.setPixel (xField v) (yField v) (onField v)) := by
  obtain ⟨hop, hres⟩ := (rowSetPixel_selects v).mp h
  simp [decode, ifClear, hop, hres]

theorem decode_of_rowDrawGlyph {v : Word} (h : rowDrawGlyph.selects v = true) :
    decode v = .ok (.drawGlyph (xField v) (yField v)) := by
  obtain ⟨hop, hres⟩ := (rowDrawGlyph_selects v).mp h
  simp [decode, ifClear, hop, hres]

theorem decode_of_rowClear {v : Word} (h : rowClear.selects v = true) : decode v = .ok .clear := by
  obtain ⟨hop, hres⟩ := (rowClear_selects v).mp h
  simp [decode, ifClear, hop, hres]

theorem decode_of_rowInit {v : Word} (h : rowInit.selects v = true) : decode v = .ok .init := by
  obtain ⟨hop, hres⟩ := (rowInit_selects v).mp h
  simp [decode, ifClear, hop, hres]

theorem decode_of_rowRender {v : Word} (h : rowRender.selects v = true) : decode v = .ok (.render (lenField v)) := by
  obtain ⟨hop, hres⟩ := (rowRender_selects v).mp h
  simp [decode, ifClear, hop, hres]

/-- Every command's word is selected by the command's own row (R84). -/
theorem row_selects_encode (i : Instr) : i.row.selects (encode i) = true := by
  cases i with
  | setPixel x y val => exact Laws.Selected.setPixel x y val
  | drawGlyph x y => exact Laws.Selected.drawGlyph x y
  | clear => exact Laws.Selected.clear
  | init => exact Laws.Selected.init
  | render len => exact Laws.Selected.render len

/-! ### The operand fields of an encoding (R82) -/

@[simp] theorem xField_encode_setPixel (x y : BitVec 8) (val : Bool) : xField (encode (.setPixel x y val)) = x :=
  (field_eq_iff _ 0 x).mpr fun j hj => by
    rw [encode_setPixel_bit, Nat.zero_add, if_pos hj]

@[simp] theorem yField_encode_setPixel (x y : BitVec 8) (val : Bool) : yField (encode (.setPixel x y val)) = y :=
  (field_eq_iff _ 8 y).mpr fun j hj => by
    rw [encode_setPixel_bit, if_neg (by omega), if_pos (by omega), Nat.add_sub_cancel_left]

@[simp] theorem onField_encode_setPixel (x y : BitVec 8) (val : Bool) : onField (encode (.setPixel x y val)) = val :=
  encode_setPixel_bit x y val 16

@[simp] theorem xField_encode_drawGlyph (x y : BitVec 8) : xField (encode (.drawGlyph x y)) = x :=
  (field_eq_iff _ 0 x).mpr fun j hj => by
    rw [encode_drawGlyph_bit, Nat.zero_add, if_pos hj]

@[simp] theorem yField_encode_drawGlyph (x y : BitVec 8) : yField (encode (.drawGlyph x y)) = y :=
  (field_eq_iff _ 8 y).mpr fun j hj => by
    rw [encode_drawGlyph_bit, if_neg (by omega), if_pos (by omega), Nat.add_sub_cancel_left]

@[simp] theorem lenField_encode_render (len : BitVec 16) : lenField (encode (.render len)) = len :=
  (field_eq_iff _ 0 len).mpr fun j hj => by
    rw [encode_render_bit, Nat.zero_add, if_pos hj]

/-- Settles O2: the row of a command selects its word, and the fields of that word are the operands. -/
theorem decodeOfEncodeIsTheCommand : Obligations.DecodeOfEncodeIsTheCommand := by
  intro i
  have hsel := row_selects_encode i
  cases i with
  | setPixel x y val => simpa using decode_of_rowSetPixel hsel
  | drawGlyph x y => simpa using decode_of_rowDrawGlyph hsel
  | clear => exact decode_of_rowClear hsel
  | init => exact decode_of_rowInit hsel
  | render len => simpa using decode_of_rowRender hsel

/-! ### A word is its fields (R82) -/

theorem opField_toNat (v : Word) : (opField v).toNat = v.toNat / 268435456 := by
  rw [opField, BitVec.extractLsb'_toNat, Nat.shiftRight_eq_div_pow]
  exact Nat.mod_eq_of_lt (by omega)

theorem xField_toNat (v : Word) : (xField v).toNat = v.toNat % 256 := by simp [xField]

theorem yField_toNat (v : Word) : (yField v).toNat = v.toNat / 256 % 256 := by
  simp [yField, Nat.shiftRight_eq_div_pow]

theorem lenField_toNat (v : Word) : (lenField v).toNat = v.toNat % 65536 := by simp [lenField]

theorem onField_iff (v : Word) : onField v = true ↔ v.toNat / 65536 % 2 = 1 := by
  simp [onField, BitVec.getLsbD, Nat.testBit_eq_decide_div_mod_eq]

theorem reservedP_toNat (v : Word) : (reservedP v).toNat = v.toNat / 131072 % 2048 := by
  simp [reservedP, Nat.shiftRight_eq_div_pow]

theorem reservedGL_toNat (v : Word) : (reservedGL v).toNat = v.toNat / 65536 % 4096 := by
  simp [reservedGL, Nat.shiftRight_eq_div_pow]

theorem reservedN_toNat (v : Word) : (reservedN v).toNat = v.toNat % 268435456 := by simp [reservedN]

theorem eq_of_formatP_fields {v w : Word} (hop : opField v = opField w) (hres : reservedP v = reservedP w)
    (hon : onField v = onField w) (hy : yField v = yField w) (hx : xField v = xField w) : v = w := by
  rw [Bool.eq_iff_iff, onField_iff, onField_iff] at hon
  simp only [← BitVec.toNat_inj, opField_toNat, reservedP_toNat, yField_toNat, xField_toNat] at hop hres hy hx
  exact BitVec.eq_of_toNat_eq (by omega)

theorem eq_of_formatG_fields {v w : Word} (hop : opField v = opField w) (hres : reservedGL v = reservedGL w)
    (hy : yField v = yField w) (hx : xField v = xField w) : v = w := by
  simp only [← BitVec.toNat_inj, opField_toNat, reservedGL_toNat, yField_toNat, xField_toNat] at hop hres hy hx
  exact BitVec.eq_of_toNat_eq (by omega)

theorem eq_of_formatL_fields {v w : Word} (hop : opField v = opField w) (hres : reservedGL v = reservedGL w)
    (hlen : lenField v = lenField w) : v = w := by
  simp only [← BitVec.toNat_inj, opField_toNat, reservedGL_toNat, lenField_toNat] at hop hres hlen
  exact BitVec.eq_of_toNat_eq (by omega)

theorem eq_of_formatN_fields {v w : Word} (hop : opField v = opField w) (hres : reservedN v = reservedN w) : v = w := by
  simp only [← BitVec.toNat_inj, opField_toNat, reservedN_toNat] at hop hres
  exact BitVec.eq_of_toNat_eq (by omega)

/-- Settles O3: the word and the encoding of its command agree in every field of the format. -/
theorem encodeOfDecodeIsTheWord : Obligations.EncodeOfDecodeIsTheWord := by
  intro v i h
  have hsel := row_selects_encode i
  rcases decode_cases h with ⟨hop, hres, rfl⟩ | ⟨hop, hres, rfl⟩ | ⟨hop, hres, rfl⟩ | ⟨hop, hres, rfl⟩ | ⟨hop, hres, rfl⟩
  · obtain ⟨hop', hres'⟩ := (rowSetPixel_selects _).mp hsel
    exact eq_of_formatP_fields (hop'.trans hop.symm) (hres'.trans hres.symm) (by simp) (by simp) (by simp)
  · obtain ⟨hop', hres'⟩ := (rowDrawGlyph_selects _).mp hsel
    exact eq_of_formatG_fields (hop'.trans hop.symm) (hres'.trans hres.symm) (by simp) (by simp)
  · obtain ⟨hop', hres'⟩ := (rowClear_selects _).mp hsel
    exact eq_of_formatN_fields (hop'.trans hop.symm) (hres'.trans hres.symm)
  · obtain ⟨hop', hres'⟩ := (rowInit_selects _).mp hsel
    exact eq_of_formatN_fields (hop'.trans hop.symm) (hres'.trans hres.symm)
  · obtain ⟨hop', hres'⟩ := (rowRender_selects _).mp hsel
    exact eq_of_formatL_fields (hop'.trans hop.symm) (hres'.trans hres.symm) (by simp)

/-! ### The opcode map (R84, R86) -/

theorem row_mnemonic (i : Instr) : i.row.mnemonic = i.mnemonic := by cases i <;> rfl

/-- A row of the opcode map selects exactly the words that decode to a command of that row. -/
theorem row_selects_iff {r : OpcodeRow} (hr : r ∈ opcodeTable) (v : Word) :
    r.selects v = true ↔ ∃ i, decode v = .ok i ∧ i.row = r := by
  constructor
  · intro h
    rcases (by simpa [opcodeTable] using hr :
      r = rowSetPixel ∨ r = rowDrawGlyph ∨ r = rowClear ∨ r = rowInit ∨ r = rowRender) with rfl | rfl | rfl | rfl | rfl
    · exact ⟨_, decode_of_rowSetPixel h, rfl⟩
    · exact ⟨_, decode_of_rowDrawGlyph h, rfl⟩
    · exact ⟨_, decode_of_rowClear h, rfl⟩
    · exact ⟨_, decode_of_rowInit h, rfl⟩
    · exact ⟨_, decode_of_rowRender h, rfl⟩
  · rintro ⟨i, hdec, rfl⟩
    rw [← encodeOfDecodeIsTheWord v i hdec]
    exact row_selects_encode i

/-- The word's top four bits, read by a shift, are its `OP` (R80). -/
theorem shiftRight_28_toNat (v : Word) : (v >>> 28).toNat = (opField v).toNat := by
  rw [opField_toNat, BitVec.toNat_ushiftRight, Nat.shiftRight_eq_div_pow]

/-- No command has the opcode 0x0 or an opcode from 0x6 (R86). -/
theorem decode_illegal_opcode {v : Word} (h : (v >>> 28).toNat = 0 ∨ 6 ≤ (v >>> 28).toNat) :
    decode v = .error .opcode := by
  rw [shiftRight_28_toNat] at h
  have hne : ∀ c : BitVec 4, 1 ≤ c.toNat → c.toNat ≤ 5 → opField v ≠ c := by
    rintro c h1 h5 rfl
    omega
  rw [decode, if_neg (hne 1#4 (by decide) (by decide)), if_neg (hne 2#4 (by decide) (by decide)),
    if_neg (hne 3#4 (by decide) (by decide)), if_neg (hne 4#4 (by decide) (by decide)),
    if_neg (hne 5#4 (by decide) (by decide))]

/-- Settles O4: the statement's list is the opcode map, whose rows select what decodes to their commands. -/
theorem wordSelectsACommandIffItsRowMatches : Obligations.WordSelectsACommandIffItsRowMatches := by
  refine fun v => ⟨fun e he => ?_, decode_illegal_opcode⟩
  have hrow : e ∈ opcodeTable.map (fun r => (r, r.mnemonic, r.pattern, r.mask)) := he
  obtain ⟨r, hr, rfl⟩ := List.mem_map.mp hrow
  refine beq_iff_eq.symm.trans ((row_selects_iff hr v).trans (exists_congr fun i => and_congr_right fun _ => ?_))
  exact ⟨fun h => ⟨h, by rw [← h, row_mnemonic]⟩, fun h => h.1⟩

/-! ### Operands (R83) -/

/-- Settles O5: a decoded operand is the field's number, and the encoding of a command shows that its operands occur. -/
theorem operandsAreTheZeroExtendedFields : Obligations.OperandsAreTheZeroExtendedFields := by
  refine ⟨fun v => ⟨fun x y val h => ?_, fun x y h => ?_, fun len h => ?_⟩,
    fun x y val => ⟨_, decodeOfEncodeIsTheCommand (.setPixel x y val)⟩,
    fun x y => ⟨_, decodeOfEncodeIsTheCommand (.drawGlyph x y)⟩,
    fun len => ⟨_, decodeOfEncodeIsTheCommand (.render len)⟩⟩
  · obtain ⟨-, -, rfl, rfl, rfl⟩ := by simpa using decode_cases h
    exact ⟨xField_toNat v, yField_toNat v, onField_iff v⟩
  · obtain ⟨-, -, rfl, rfl⟩ := by simpa using decode_cases h
    exact ⟨xField_toNat v, yField_toNat v⟩
  · obtain ⟨-, -, rfl⟩ := by simpa using decode_cases h
    exact lenField_toNat v

/-! ### Illegal words (R85, R86) -/

/-- A reserved field that is 0 leaves nothing under a mask of its bits. -/
theorem masked_zero_of_field {n lo : Nat} {v : Word} (h : v.extractLsb' lo n = 0#n) {mask : Word}
    (hmask : ∀ j < 32, mask.getLsbD j = true → lo ≤ j ∧ j < lo + n) : v &&& mask = 0#32 := by
  refine (masked_eq_iff v mask 0#32).mpr fun j hj => ?_
  rw [BitVec.getLsbD_zero, Bool.and_eq_false_imp]
  intro hv
  by_contra hm
  obtain ⟨hlo, hhi⟩ := hmask j hj (Bool.eq_true_of_not_eq_false hm)
  rw [bit_of_field h j hlo hhi, BitVec.getLsbD_zero] at hv
  cases hv

/-- A word with no legal opcode, or with a bit of its format's reserved mask set, is no command. -/
theorem decode_error_of_illegal {v : Word} (h : let op := (v >>> 28).toNat
      op = 0 ∨ 6 ≤ op ∨ (op = 1 ∧ v &&& 0x0FFE0000#32 ≠ 0#32) ∨ ((op = 2 ∨ op = 5) ∧ v &&& 0x0FFF0000#32 ≠ 0#32) ∨
        ((op = 3 ∨ op = 4) ∧ v &&& 0x0FFFFFFF#32 ≠ 0#32)) : ∃ e, decode v = .error e := by
  rw [decode_error_iff]
  rintro (⟨hop, hres⟩ | ⟨hop, hres⟩ | ⟨hop, hres⟩ | ⟨hop, hres⟩ | ⟨hop, hres⟩) <;>
    simp only [shiftRight_28_toNat, hop] at h
  · simp [masked_zero_of_field hres (mask := 0x0FFE0000#32) (by decide)] at h
  · simp [masked_zero_of_field hres (mask := 0x0FFF0000#32) (by decide)] at h
  · simp [masked_zero_of_field hres (mask := 0x0FFFFFFF#32) (by decide)] at h
  · simp [masked_zero_of_field hres (mask := 0x0FFFFFFF#32) (by decide)] at h
  · simp [masked_zero_of_field hres (mask := 0x0FFF0000#32) (by decide)] at h

/-- Outside the fault state a word that is no command raises ERR_ILLEGAL_CMD (R85, R86). -/
theorem execute_of_decode_error {v : Word} {e : Illegal} (h : decode v = .error e) {s : State} (hs : faulted s = false) :
    execute v s = .next (raiseError .illegalCmd v s) := by
  rw [execute, h]
  exact issue_ok hs _

theorem statusRaise_illegalCmd (st : Word) :
    statusRaise st ErrCode.illegalCmd.code = (st &&& 0xFFFFFF0D#32) ||| 0x00000052#32 :=
  BitVec.or_assoc _ _ _

/-- Settles O6: the `CMD` write executes a word that is no command. -/
theorem illegalWordRaisesIllegalCommand : Obligations.IllegalWordRaisesIllegalCommand := by
  intro s v rest hin hidle hs hill
  obtain ⟨e, hdec⟩ := decode_error_of_illegal hill
  calc step s = execute v { s with inputs := rest } := step_cmd hin hidle
    _ = .next (raiseError .illegalCmd v { s with inputs := rest }) := execute_of_decode_error hdec hs
    _ = _ := by rw [raiseError, statusRaise_illegalCmd, ← hidle]

/-! ### The example words and the addressing bytes (R88, R89, R93) -/

/-- Settles O1: each example word is the encoding of its line, and so decodes to it. -/
theorem specExampleWordsDecode : Obligations.SpecExampleWordsDecode := by
  intro e he
  have henc : encode e.1 = e.2 := by
    revert e
    decide
  exact ⟨henc, henc ▸ decodeOfEncodeIsTheCommand e.1⟩

/-- Settles O39: the eight page commands one by one, then the two constant column commands. -/
theorem addressingBytesAreThoseOfTheRule : Obligations.AddressingBytesAreThoseOfTheRule := by
  refine ⟨fun p => ?_, by decide, by decide, by decide, by decide, by decide⟩
  revert p
  decide

end Sys2Proof
end

section
/-! The proofs about the framebuffer commands (40_framebuffer.md). First what their error path leaves, then SET_PIXEL, DRAW_GLYPH
and CLEAR in turn, and at last the frame of the three. -/

namespace Sys2Proof.Machine

/-! ### ERR_GEOMETRY (R102, R106, R170, R172) -/

theorem statusRaise_geometry (st : Word) :
    statusRaise st ErrCode.geometry.code = (st &&& 0xFFFFFF0D#32) ||| 0x00000012#32 :=
  BitVec.or_assoc _ _ _

/-- `raise Error` touches STATUS in FAULT and ERR_CODE only. -/
theorem keptBits_statusRaise (st : Word) (c : BitVec 4) :
    statusRaise st c &&& 0xFFFFFF0D#32 = st &&& 0xFFFFFF0D#32 := by
  refine BitVec.eq_of_getLsbD_eq fun i hi => ?_
  rw [BitVec.getLsbD_and, BitVec.getLsbD_and, statusRaise_bit]
  interval_cases i <;> simp

/-- The number of a SET_PIXEL word, put together from its fields (R82, R84). -/
theorem encode_setPixel_eq_ofNat (x y : BitVec 8) (val : Bool) : encode (.setPixel x y val) =
    BitVec.ofNat 32 (0x10000000 + (if val then 65536 else 0) + y.toNat * 256 + x.toNat) := by
  obtain ⟨hop, hres⟩ := (rowSetPixel_selects _).mp (row_selects_encode (.setPixel x y val))
  have hop := (opField_toNat _).symm.trans (congrArg BitVec.toNat hop)
  have hres := (reservedP_toNat _).symm.trans (congrArg BitVec.toNat hres)
  have hon := onField_iff (encode (.setPixel x y val))
  have hy := yField_toNat (encode (.setPixel x y val))
  have hx := xField_toNat (encode (.setPixel x y val))
  rw [onField_encode_setPixel] at hon
  rw [yField_encode_setPixel] at hy
  rw [xField_encode_setPixel] at hx
  simp only [BitVec.reduceToNat] at hop hres
  refine BitVec.eq_of_toNat_eq ?_
  rw [BitVec.toNat_ofNat]
  split
  · next h => have hbit := hon.mp h; omega
  · next h => have hbit := mt hon.mpr h; omega

/-- The number of a DRAW_GLYPH word, put together from its fields (R82, R84). -/
theorem encode_drawGlyph_eq_ofNat (x y : BitVec 8) :
    encode (.drawGlyph x y) = BitVec.ofNat 32 (0x20000000 + y.toNat * 256 + x.toNat) := by
  obtain ⟨hop, hres⟩ := (rowDrawGlyph_selects _).mp (row_selects_encode (.drawGlyph x y))
  have hop := (opField_toNat _).symm.trans (congrArg BitVec.toNat hop)
  have hres := (reservedGL_toNat _).symm.trans (congrArg BitVec.toNat hres)
  have hy := yField_toNat (encode (.drawGlyph x y))
  have hx := xField_toNat (encode (.drawGlyph x y))
  rw [yField_encode_drawGlyph] at hy
  rw [xField_encode_drawGlyph] at hx
  simp only [BitVec.reduceToNat] at hop hres
  refine BitVec.eq_of_toNat_eq ?_
  rw [BitVec.toNat_ofNat]
  omega

/-! ### SET_PIXEL (R101, R102) -/

/-- Settles O27: a legal SET_PIXEL is one `writeBit`, whose bits are known. -/
theorem setPixelWritesExactlyItsBit : Obligations.SetPixelWritesExactlyItsBit := by
  intro s x y val hs hx hy
  exact ⟨_, exec_setPixel_legal val hs ((pixelLegal_iff x y).mpr ⟨hx, hy⟩), rfl, fun j b hb =>
    ⟨writeBit_fb_bit _ _ _ _ _ hb, writeBit_def_bit _ _ _ _ _ hb⟩⟩

/-- Settles O28: the pixel is not legal, and the word in ERR_CMD is the command's encoding. -/
theorem setPixelOutsideTheDisplayRaisesGeometry : Obligations.SetPixelOutsideTheDisplayRaisesGeometry := by
  intro s x y val hs hout
  have hl : pixelLegal x y = false := by
    rw [← Bool.not_eq_true, pixelLegal_iff]
    omega
  rw [exec_setPixel_rejected val hs hl, raiseError, statusRaise_geometry, encode_setPixel_eq_ofNat]

/-- Settles O29: the two commands are two `writeBit`s of one bit. -/
theorem settingThenClearingAPixelIsIsolated : Obligations.SettingThenClearingAPixelIsIsolated := by
  intro s x y hs hx hy
  have hl : pixelLegal x y = true := (pixelLegal_iff x y).mpr ⟨hx, hy⟩
  have hb : y.toNat % 8 < 8 := Nat.mod_lt _ (by decide)
  refine ⟨_, _, exec_setPixel_legal true hs hl, exec_setPixel_legal false hs hl, ?_, ?_, fun j b hb hne => ?_⟩
  · rw [writeBit_fb_bit _ _ _ _ _ hb, if_pos ⟨rfl, rfl⟩]
  · rw [writeBit_def_bit _ _ _ _ _ hb, if_pos ⟨rfl, rfl⟩]
  · have hne : ¬ (j = byteIdx x y ∧ b = bitIdx y) := hne
    rw [writeBit_fb_bit _ _ _ _ _ hb, if_neg hne, writeBit_fb_bit _ _ _ _ _ hb, if_neg hne]

/-! ### Two pixel writes (R104) -/

/-- Two states with legal memories that agree on every framebuffer and DEF bit and on all else are equal. -/
theorem State.eq_of_bits {s t : State} (hs : memoryLegal s) (ht : memoryLegal t)
    (hr : t = { s with fb := t.fb, defd := t.defd })
    (hfb : ∀ j b, b < 8 → (fbByte t j).getLsbD b = (fbByte s j).getLsbD b)
    (hdef : ∀ j b, b < 8 → (defByte t j).getLsbD b = (defByte s j).getLsbD b) : t = s :=
  State.eq_of_bytes hs ht hr (fun j => BitVec.eq_of_getLsbD_eq fun b => hfb j b)
    (fun j => BitVec.eq_of_getLsbD_eq fun b => hdef j b)

/-- Of two writes of one bit the last decides. -/
theorem writeBit_writeBit_same {s : State} (hs : memoryLegal s) {i : Nat} (hi : i < 1024) (c : Nat) (val val' : Bool) :
    writeBit i c val' (writeBit i c val s) = writeBit i c val' s := by
  refine State.eq_of_bits (memoryLegal_writeBit hs hi c val')
    (memoryLegal_writeBit (memoryLegal_writeBit hs hi c val) hi c val') rfl (fun j b hb => ?_) (fun j b hb => ?_)
  · rw [writeBit_fb_bit _ _ _ _ _ hb, writeBit_fb_bit _ _ _ _ _ hb, writeBit_fb_bit _ _ _ _ _ hb]
    split <;> rfl
  · rw [writeBit_def_bit _ _ _ _ _ hb, writeBit_def_bit _ _ _ _ _ hb, writeBit_def_bit _ _ _ _ _ hb]
    split <;> rfl

/-- Writes of different bits commute. -/
theorem writeBit_comm {s : State} (hs : memoryLegal s) {i i' : Nat} (hi : i < 1024) (hi' : i' < 1024) {c c' : Nat}
    (hne : ¬ (i = i' ∧ c = c')) (val val' : Bool) :
    writeBit i' c' val' (writeBit i c val s) = writeBit i c val (writeBit i' c' val' s) := by
  refine State.eq_of_bits (memoryLegal_writeBit (memoryLegal_writeBit hs hi' c' val') hi c val)
    (memoryLegal_writeBit (memoryLegal_writeBit hs hi c val) hi' c' val') rfl (fun j b hb => ?_) (fun j b hb => ?_)
  · rw [writeBit_fb_bit _ _ _ _ _ hb, writeBit_fb_bit _ _ _ _ _ hb, writeBit_fb_bit _ _ _ _ _ hb,
      writeBit_fb_bit _ _ _ _ _ hb]
    split
    · rw [if_neg (by omega)]
    · rfl
  · rw [writeBit_def_bit _ _ _ _ _ hb, writeBit_def_bit _ _ _ _ _ hb, writeBit_def_bit _ _ _ _ _ hb,
      writeBit_def_bit _ _ _ _ _ hb]
    split
    · exact (ite_self true).symm
    · rfl

theorem pixelLegal_lt {x y : BitVec 8} (h : pixelLegal x y = true) : byteIdx x y < 1024 := by
  obtain ⟨hx, hy⟩ := (pixelLegal_iff x y).mp h
  exact byteIdx_lt hx hy

/-- A SET_PIXEL that leaves no error wrote its bit. -/
theorem exec_setPixel_of_not_faulted {s u : State} {x y : BitVec 8} {val : Bool} (h : exec (.setPixel x y val) s = .next u)
    (hu : faulted u = false) :
    faulted s = false ∧ pixelLegal x y = true ∧ u = writeBit (byteIdx x y) (bitIdx y) val s := by
  rcases execSetPixel_cases h with ⟨hs, rfl⟩ | ⟨-, -, rfl⟩ | hwritten
  · rw [hs] at hu; cases hu
  · rw [faulted_raiseError] at hu; cases hu
  · exact hwritten

/-- Different legal pixels have different bits (R23). -/
theorem address_ne_of_pixel_ne {x y x' y' : BitVec 8} (hl : pixelLegal x y = true) (hl' : pixelLegal x' y' = true)
    (hne : (x, y) ≠ (x', y')) : ¬ (byteIdx x y = byteIdx x' y' ∧ bitIdx y = bitIdx y') := by
  obtain ⟨hx, -⟩ := (pixelLegal_iff x y).mp hl
  obtain ⟨hx', -⟩ := (pixelLegal_iff x' y').mp hl'
  rintro ⟨hi, hb⟩
  exact hne (by rw [← pixelOf_byteIdx_bitIdx hx, hi, hb, pixelOf_byteIdx_bitIdx hx'])

/-- Settles O30: without an error each SET_PIXEL is a `writeBit`; those of one bit overwrite, those of two bits commute. -/
theorem pixelWritesLastDecidesAndOthersCommute : Obligations.PixelWritesLastDecidesAndOthersCommute := by
  refine ⟨fun s u x y val val' hmem hu hfu => ?_, fun s u w x y x' y' val val' hmem hne hu hw hfu hfw => ?_⟩
  · obtain ⟨hs, hl, rfl⟩ := exec_setPixel_of_not_faulted hu hfu
    rw [exec_setPixel_legal val' hfu hl, exec_setPixel_legal val' hs hl, writeBit_writeBit_same hmem (pixelLegal_lt hl)]
  · obtain ⟨-, hl, rfl⟩ := exec_setPixel_of_not_faulted hu hfu
    obtain ⟨-, hl', rfl⟩ := exec_setPixel_of_not_faulted hw hfw
    rw [exec_setPixel_legal val' hfu hl', exec_setPixel_legal val hfw hl,
      writeBit_comm hmem (pixelLegal_lt hl) (pixelLegal_lt hl') (address_ne_of_pixel_ne hl hl' hne)]

/-! ### DRAW_GLYPH (R105, R106) -/

/-- Byte `k` of a drawn glyph is `G[k]`. -/
theorem fbByte_writeBytes_glyph (base : Nat) (s : State) {k : Nat} (hk : k < 8) :
    fbByte (writeBytes base (glyph s) s) (base + k) = glyphByte s k := by
  rw [fbByte_writeBytes, glyph_length, if_pos (by omega), Nat.add_sub_cancel_left, glyph_getD s hk]

theorem defByte_writeBytes_glyph (base : Nat) (s : State) {k : Nat} (hk : k < 8) :
    defByte (writeBytes base (glyph s) s) (base + k) = 0xFF#8 := by
  rw [defByte_writeBytes, glyph_length, if_pos (by omega)]

/-- Drawing a glyph stores to its eight bytes only. -/
theorem writeBytes_glyph_frame (base : Nat) (s : State) {j : Nat} (hj : j < base ∨ base + 8 ≤ j) :
    fbByte (writeBytes base (glyph s) s) j = fbByte s j ∧ defByte (writeBytes base (glyph s) s) j = defByte s j := by
  rw [fbByte_writeBytes, defByte_writeBytes, glyph_length, if_neg (by omega), if_neg (by omega)]
  exact ⟨rfl, rfl⟩

/-- Settles O31: a legal DRAW_GLYPH is `writeBytes` of the staged glyph, whose bytes are those of the two registers. -/
theorem drawGlyphCopiesTheStagedGlyph : Obligations.DrawGlyphCopiesTheStagedGlyph := by
  intro s x y hs hpage hy hx
  have hl : originLegal x y = true := (originLegal_iff x y).mpr ⟨hpage, hy, hx⟩
  refine ⟨_, exec_drawGlyph_legal hs hl, writeBytes_rest _ _ _, fun k hk => ?_, fun k hk => ?_, fun k hk => ?_,
    fun j hj => ?_⟩
  · exact (fbByte_writeBytes_glyph (byteIdx x y) s (by omega)).trans (glyphByte_lo s hk)
  · have hhi : glyphByte s (4 + k) = s.glyphHi.extractLsb' (8 * k) 8 := by
      rw [glyphByte_hi s (by omega), Nat.add_sub_cancel_left]
    rw [Nat.add_assoc]
    exact (fbByte_writeBytes_glyph (byteIdx x y) s (by omega)).trans hhi
  · exact defByte_writeBytes_glyph (byteIdx x y) s hk
  · refine writeBytes_glyph_frame (byteIdx x y) s ?_
    by_contra hin
    exact hj (j - byteIdx x y) (by omega) (show j = byteIdx x y + (j - byteIdx x y) by omega)

/-! ### Glyph origins (R107) -/

/-- The legal origins as a list of rows and a range of columns. -/
theorem originLegal_iff_mem (x y : BitVec 8) :
    originLegal x y = true ↔ x.toNat ≤ 120 ∧ y.toNat ∈ [0, 8, 16, 24, 32, 40, 48, 56] := by
  simp only [originLegal_iff, List.mem_cons, List.not_mem_nil, or_false]
  omega

/-- A legal column has eight legal rows, any other none. -/
theorem legal_rows_length {x : Nat} (hx : x < 256) :
    ((List.range 256).filter fun y => originLegal (BitVec.ofNat 8 x) (BitVec.ofNat 8 y)).length =
      if x ≤ 120 then 8 else 0 := by
  have hcol : (BitVec.ofNat 8 x).toNat = x := by rw [BitVec.toNat_ofNat]; omega
  split
  · next h =>
    have hrows : ∀ y ∈ List.range 256, originLegal (BitVec.ofNat 8 x) (BitVec.ofNat 8 y) =
        decide (y ∈ [0, 8, 16, 24, 32, 40, 48, 56]) := by
      intro y hy
      have hrow : (BitVec.ofNat 8 y).toNat = y := by
        rw [BitVec.toNat_ofNat]; exact Nat.mod_eq_of_lt (List.mem_range.mp hy)
      rw [Bool.eq_iff_iff, originLegal_iff_mem, hcol, hrow, decide_eq_true_iff]
      exact and_iff_right h
    rw [List.filter_congr hrows]
    decide
  · next h =>
    refine List.length_eq_zero_iff.mpr (List.filter_eq_nil_iff.mpr fun y _ hl => h ?_)
    rw [← hcol]
    exact ((originLegal_iff_mem _ _).mp hl).1

/-- Eight rows for each of the columns 0 to 120 below `n`. -/
theorem sum_legal_rows (n : Nat) : ((List.range n).map fun x => if x ≤ 120 then 8 else 0).sum = 8 * min n 121 := by
  induction n with
  | zero => rfl
  | succ n ih =>
    rw [List.range_succ, List.map_append, List.sum_append, ih, List.map_singleton, List.sum_singleton]
    split <;> omega

/-- 121 legal columns of eight legal rows. -/
theorem legal_origins_length : ((List.range 256).flatMap fun x => (List.range 256).filter fun y =>
    originLegal (BitVec.ofNat 8 x) (BitVec.ofNat 8 y)).length = 968 := by
  rw [List.length_flatMap, List.map_congr_left fun x hx => legal_rows_length (List.mem_range.mp hx),
    sum_legal_rows]
  rfl

/-- Settles O32: the legal origins are those of the list, and the error is that of the encoded word. -/
theorem glyphOriginsAreTheLegalOnes : Obligations.GlyphOriginsAreTheLegalOnes := by
  refine ⟨fun s x y hs => ?_, legal_origins_length⟩
  split
  · next h =>
    have hl := (originLegal_iff_mem x y).mpr h
    obtain ⟨-, -, hx⟩ := (originLegal_iff x y).mp hl
    refine ⟨⟨_, exec_drawGlyph_legal hs hl, ?_⟩, ?_⟩
    · rw [faulted, writeBytes_status]; exact hs
    · simp only [byteIdx, Geom.pageH, Geom.W]; omega
  · next h =>
    have hl : originLegal x y = false := Bool.eq_false_iff.mpr fun hl => h ((originLegal_iff_mem x y).mp hl)
    rw [exec_drawGlyph_rejected hs hl, raiseError, statusRaise_geometry, encode_drawGlyph_eq_ofNat]

/-! ### A glyph read back (R108) -/

/-- A command's word written to `CMD` with the Block idle runs the command. -/
theorem step_cmdWrite {s : State} {i : Instr} {rest : List Input} (hidle : s.seq = .idle)
    (hin : s.inputs = .host (cmdWrite i) :: rest) : step s = exec i { s with inputs := rest } :=
  stepRunsTheDecodedCommand s (encode i) i rest hin hidle (decodeOfEncodeIsTheCommand i)

/-- The window offset of an index below 1024. -/
theorem winOffset_ofNat {i : Nat} (hi : i < 1024) : winOffset (BitVec.ofNat 10 i) = BitVec.ofNat 11 (0x400 + i) := by
  refine BitVec.eq_of_toNat_eq ?_
  simp [winOffset]
  omega

/-- The glyph registers that LOAD_GLYPH writes hold its bytes (R29). -/
theorem glyphByte_loaded {s : State} {b0 b1 b2 b3 b4 b5 b6 b7 : Byte} (hlo : s.glyphLo = leWord [b0, b1, b2, b3])
    (hhi : s.glyphHi = leWord [b4, b5, b6, b7]) {k : Nat} (hk : k < 8) :
    glyphByte s k = [b0, b1, b2, b3, b4, b5, b6, b7].getD k 0#8 := by
  by_cases h : k < 4
  · rw [glyphByte, if_pos h, hlo, wordByte_leWord _ h]
    interval_cases k <;> rfl
  · rw [glyphByte, if_neg h, hhi, wordByte_leWord _ (by omega)]
    interval_cases k <;> rfl

/-- LOAD_GLYPH is two steps, and changes the glyph registers only, to the glyph's bytes. -/
theorem runsTo_loadGlyph {s : State} {b0 b1 b2 b3 b4 b5 b6 b7 : Byte} {rest : List Input} (hidle : s.seq = .idle)
    (hin : s.inputs = (AsmLine.loadGlyph b0 b1 b2 b3 b4 b5 b6 b7).expand.map Input.host ++ rest) :
    ∃ u, runsTo 2 s u ∧ u = { s with inputs := rest, glyphLo := u.glyphLo, glyphHi := u.glyphHi } ∧
      ∀ k, k < 8 → glyphByte u k = [b0, b1, b2, b3, b4, b5, b6, b7].getD k 0#8 :=
  ⟨_, ⟨_, step_write_regOffset .glyphLo hidle hin, _, step_write_regOffset .glyphHi hidle rfl, rfl⟩, rfl,
    fun _ hk => glyphByte_loaded rfl rfl hk⟩

/-- A byte read of the window at a defined byte is one step, and returns the byte. -/
theorem step_rdb {s : State} {i : Nat} {rest : List Input} (hidle : s.seq = .idle) (hi : i < 1024)
    (hdef : defByte s i = 0xFF#8)
    (hin : s.inputs = (AsmLine.rdb (BitVec.ofNat 10 i)).expand.map Input.host ++ rest) :
    step s = .next { s with inputs := rest, hostReads := s.hostReads ++ [(fbByte s i).setWidth 32] } := by
  rw [step_host hin hidle, winOffset_ofNat hi]
  exact windowWidthsSeeTheSameBytes.1 { s with inputs := rest } i hi hdef

/-- Drawing the staged glyph and reading byte `k` of it back are two steps, and the read returns `G[k]`. -/
theorem runsTo_drawGlyph_rdb {s : State} {x y : BitVec 8} {k : Nat} {rest : List Input} (hidle : s.seq = .idle)
    (hs : faulted s = false) (hl : originLegal x y = true) (hk : k < 8)
    (hin : s.inputs = ((AsmLine.drawGlyph x y).expand ++
      (AsmLine.rdb (BitVec.ofNat 10 (byteIdx x y + k))).expand).map Input.host ++ rest) :
    ∃ t, runsTo 2 s t ∧ t.inputs = rest ∧ t.hostReads = s.hostReads ++ [(glyphByte s k).setWidth 32] := by
  have hdraw := (step_cmdWrite hidle hin).trans (exec_drawGlyph_legal hs hl)
  have hlast := originLegal_lt hl
  refine ⟨_, ⟨_, hdraw, _, step_rdb (i := byteIdx x y + k) (rest := rest) ?_ (by omega) ?_ ?_, rfl⟩, rfl, ?_⟩
  · rw [writeBytes_seq]; exact hidle
  · exact defByte_writeBytes_glyph _ _ hk
  · rw [writeBytes_inputs]; rfl
  · dsimp only
    rw [writeBytes_hostReads, fbByte_writeBytes_glyph _ _ hk]
    rfl

/-- Settles O33: two register writes stage the glyph, the command draws it, and the byte read returns `G[k]`. -/
theorem glyphReadsBackUnchanged : Obligations.GlyphReadsBackUnchanged := by
  intro s x y b0 b1 b2 b3 b4 b5 b6 b7 k rest hidle hs hpage hy hx hk hin
  have hl : originLegal x y = true := (originLegal_iff x y).mpr ⟨hpage, hy, by omega⟩
  rw [List.append_assoc, List.map_append, List.append_assoc] at hin
  obtain ⟨u, hload, hu, hglyph⟩ := runsTo_loadGlyph hidle hin
  have hreads : u.hostReads = s.hostReads := by rw [hu]
  obtain ⟨t, hdraw, hrest, hread⟩ :=
    runsTo_drawGlyph_rdb (s := u) (rest := rest) (by rw [hu]; exact hidle) (by rw [hu]; exact hs) hl hk (by rw [hu]; rfl)
  rw [hreads, hglyph k hk] at hread
  exact ⟨t, runsTo_add hload hdraw, hrest, hread⟩

/-! ### CLEAR (R111) -/

theorem exec_clear {s : State} (hs : faulted s = false) : exec .clear s = .next (fillFramebuffer 0x00#8 s) :=
  (issue_ok hs _ : execClear s = _)

/-- A second CLEAR changes nothing. -/
theorem fillFramebuffer_idem (v : Byte) (s : State) : fillFramebuffer v (fillFramebuffer v s) = fillFramebuffer v s := by
  rw [fillFramebuffer, fillFramebuffer]

/-- Settles O34: CLEAR fills both memories, the same way each time. -/
theorem clearTurnsEveryPixelOff : Obligations.ClearTurnsEveryPixelOff := by
  refine fun s hs => ⟨_, exec_clear hs, ?_, fun i hi => ⟨?_, ?_⟩, ?_⟩
  · rw [fillFramebuffer]
  · rw [fbByte_fillFramebuffer, ite_self]
  · rw [defByte_fillFramebuffer]; exact if_pos hi
  · rw [exec_clear (s := fillFramebuffer 0x00#8 s) hs, fillFramebuffer_idem]

/-- A loop of `writeByte`s of one value over consecutive bytes is `writeBytes` of a constant list. -/
theorem foldl_writeByte_range' (v : Byte) (base n : Nat) (s : State) :
    (List.range' base n).foldl (fun u i => writeByte i v u) s = writeBytes base (List.replicate n v) s := by
  induction n generalizing base s with
  | zero => rfl
  | succ n ih => exact ih (base + 1) (writeByte base v s)

/-- `writeBytes` of a constant over the whole index space fills the framebuffer. -/
theorem writeBytes_all {s : State} (hs : memoryLegal s) :
    writeBytes 0 (List.replicate 1024 0x00#8) s = fillFramebuffer 0x00#8 s := by
  have hlegal := memoryLegal_writeBytes (base := 0) (l := List.replicate 1024 0x00#8) hs
    ((Nat.zero_add _).trans List.length_replicate).le
  obtain ⟨-, -, hfb, hdef⟩ := hs
  refine State.eq_of_bytes (memoryLegal_fillFramebuffer _ s) hlegal ?_ (fun j => ?_)
    (fun j => ?_)
  · rw [fillFramebuffer]; exact writeBytes_rest _ _ _
  · rw [fbByte_writeBytes, fbByte_fillFramebuffer, ite_self, List.length_replicate]
    split
    · exact List.getD_replicate _ (by omega)
    · exact Memory.read_above (n := 1024) hfb (by omega)
  · rw [defByte_writeBytes, defByte_fillFramebuffer, List.length_replicate]
    split
    · exact (if_pos (show j < 1024 by omega)).symm
    · exact (Memory.read_above (n := 1024) hdef (by omega)).trans (if_neg (show ¬ j < 1024 by omega)).symm

/-- Settles O35: the loop writes a constant over the whole index space. -/
theorem clearIsTheLoopOfTheRule : Obligations.ClearIsTheLoopOfTheRule := by
  intro s hmem hs
  rw [exec_clear hs, List.range_eq_range', foldl_writeByte_range', writeBytes_all hmem]

/-! ### The frame of the three commands -/

/-- A framebuffer command changes the two memories only, or raises an error outside the fault state. -/
theorem exec_framebuffer_cases {i : Instr} {s t : State} (h : exec i s = .next t)
    (hi : (∃ x y val, i = .setPixel x y val) ∨ (∃ x y, i = .drawGlyph x y) ∨ i = .clear) :
    t = { s with fb := t.fb, defd := t.defd } ∨ (faulted s = false ∧ ∃ c v, t = raiseError c v s) := by
  rcases hi with ⟨x, y, val, rfl⟩ | ⟨x, y, rfl⟩ | rfl
  · rcases execSetPixel_cases h with ⟨-, rfl⟩ | ⟨hs, -, rfl⟩ | ⟨-, -, rfl⟩
    · exact .inl rfl
    · exact .inr ⟨hs, _, _, rfl⟩
    · exact .inl rfl
  · rcases execDrawGlyph_cases h with ⟨-, rfl⟩ | ⟨hs, -, rfl⟩ | ⟨-, -, rfl⟩
    · exact .inl rfl
    · exact .inr ⟨hs, _, _, rfl⟩
    · exact .inl (writeBytes_rest _ _ _)
  · rcases execClear_cases h with ⟨-, rfl⟩ | ⟨-, rfl⟩
    · exact .inl rfl
    · exact .inl (by rw [fillFramebuffer])

/-- A SET_PIXEL stores to its pixel's byte only. -/
theorem exec_setPixel_frame {x y : BitVec 8} {val : Bool} {s t : State} (h : exec (.setPixel x y val) s = .next t) {j : Nat}
    (hj : j ≠ byteIdx x y) : fbByte t j = fbByte s j ∧ defByte t j = defByte s j := by
  rcases execSetPixel_cases h with ⟨-, rfl⟩ | ⟨-, -, rfl⟩ | ⟨-, -, rfl⟩
  · exact ⟨rfl, rfl⟩
  · exact ⟨rfl, rfl⟩
  · rw [fbByte_writeBit, defByte_writeBit, if_neg hj, if_neg hj]
    exact ⟨rfl, rfl⟩

/-- A DRAW_GLYPH stores to its glyph's eight bytes only. -/
theorem exec_drawGlyph_frame {x y : BitVec 8} {s t : State} (h : exec (.drawGlyph x y) s = .next t) {j : Nat}
    (hj : j < byteIdx x y ∨ byteIdx x y + 8 ≤ j) : fbByte t j = fbByte s j ∧ defByte t j = defByte s j := by
  rcases execDrawGlyph_cases h with ⟨-, rfl⟩ | ⟨-, -, rfl⟩ | ⟨-, -, rfl⟩
  · exact ⟨rfl, rfl⟩
  · exact ⟨rfl, rfl⟩
  · exact writeBytes_glyph_frame _ s hj

/-- CLEAR raises no error and leaves none. -/
theorem exec_clear_faulted {s t : State} (h : exec .clear s = .next t) : faulted t = faulted s := by
  rcases execClear_cases h with ⟨-, rfl⟩ | ⟨-, rfl⟩ <;> rfl

/-- The fields beside the two memories that a framebuffer command keeps on both paths, and what an error changes. -/
theorem exec_framebuffer_fields {i : Instr} {s t : State} (h : exec i s = .next t)
    (hi : (∃ x y val, i = .setPixel x y val) ∨ (∃ x y, i = .drawGlyph x y) ∨ i = .clear) :
    t.glyphLo = s.glyphLo ∧ t.glyphHi = s.glyphHi ∧ t.trace = s.trace ∧ t.inputs = s.inputs ∧ t.hostReads = s.hostReads ∧
    initDone t = initDone s ∧ t.status &&& 0xFFFFFF0D#32 = s.status &&& 0xFFFFFF0D#32 ∧
    (t.seq = s.seq ∧ t.status = s.status ∧ t.errCmd = s.errCmd ∨
      t.seq = .idle ∧ faulted s = false ∧ faulted t = true ∧ t.fb = s.fb ∧ t.defd = s.defd) := by
  rcases exec_framebuffer_cases h hi with ht | ⟨hs, c, v, rfl⟩
  · rw [ht]
    exact ⟨rfl, rfl, rfl, rfl, rfl, rfl, rfl, .inl ⟨rfl, rfl, rfl⟩⟩
  · exact ⟨rfl, rfl, rfl, rfl, rfl, initDone_raiseError c v s, keptBits_statusRaise s.status c.code,
      .inr ⟨rfl, hs, faulted_raiseError c v s, rfl, rfl⟩⟩

/-- Settles O36: the fields follow from the two kinds of next state, the bytes from each command's stores. -/
theorem framebufferCommandsFrame : Obligations.FramebufferCommandsFrame := by
  intro i s t h hi
  obtain ⟨hlo, hhi, htrace, hin, hreads, hdone, hstatus, herr⟩ := exec_framebuffer_fields h hi
  refine ⟨hlo, hhi, htrace, hin, hreads, hdone, hstatus, herr, ?_, ?_, ?_, fun hs => ?_⟩
  · rintro x y val rfl j hj; exact exec_setPixel_frame h hj
  · rintro x y rfl j hj; exact exec_drawGlyph_frame h hj
  · rintro rfl; exact exec_clear_faulted h
  · rw [exec_faulted hs] at h; cases h; rfl

end Sys2Proof.Machine
end

section
/-! The proofs about the controller commands (41_controller.md): INIT_DONE and the commands in progress, RENDER's checks, the
runs of INIT and of RENDER one acceptance at a time, the frame a RENDER sends, and the controller's image of it. -/

namespace Sys2Proof.Machine

/-! ### Commands in progress (R69, R141 to R143, R174) -/

theorem commandLegal_of_idle {s : State} (h : s.seq = .idle) : commandLegal s := by
  unfold commandLegal
  rw [h]
  trivial

theorem commandLegal_init {s : State} {k : Fin 22} (h : s.seq = .init k) : commandLegal s ↔ faulted s = false := by
  unfold commandLegal
  rw [h]

theorem commandLegal_render {s : State} {p : Fin 8} {j : Fin 4} (h : s.seq = .render p j) :
    commandLegal s ↔ faulted s = false ∧ initDone s = true ∧ allDefined s := by
  unfold commandLegal
  rw [h]

theorem initNext_cases (k : Fin 22) : initNext k = .idle ∨ ∃ k', initNext k = .init k' := by
  unfold initNext
  split
  · exact .inr ⟨_, rfl⟩
  · exact .inl rfl

theorem renderNext_cases (p : Fin 8) (j : Fin 4) : renderNext p j = .idle ∨ ∃ p' j', renderNext p j = .render p' j' := by
  unfold renderNext
  split
  · exact .inr ⟨_, _, rfl⟩
  · split
    · exact .inr ⟨_, _, rfl⟩
    · exact .inl rfl

/-- A command is issued with the Block idle, and starts with what it needs or not at all. -/
theorem CommandEffect.commandLegal {i : Instr} {s t : State} (hidle : s.seq = .idle) (h : CommandEffect i s t) :
    commandLegal t := by
  cases h with
  | initStarted hf => exact (commandLegal_init rfl).mpr hf
  | renderStarted hf hi hd => exact (commandLegal_render rfl).mpr ⟨hf, hi, hd⟩
  | rejected => exact commandLegal_of_idle rfl
  | glyph => exact commandLegal_of_idle ((writeBytes_seq _ _ _).trans hidle)
  | _ => exact commandLegal_of_idle hidle

theorem AccessEffect.commandLegal {acc : Access} {s t : State} (hidle : s.seq = .idle) (h : AccessEffect acc s t) :
    commandLegal t := by
  cases h with
  | command i h => exact h.commandLegal hidle
  | illegal => exact commandLegal_of_idle rfl
  | _ => exact commandLegal_of_idle hidle

/-- An acceptance ends the command, or moves it on with FAULT, INIT_DONE and DEF such as they must be. -/
theorem commandLegal_acceptTransfer {s : State} (hs : commandLegal s) : commandLegal (acceptTransfer s) := by
  rcases acceptTransfer_cases s with ⟨-, e⟩ | ⟨k, bytes, hk, -, e⟩ | ⟨p, j, bytes, hpj, -, e⟩ <;> rw [e]
  · exact hs
  · have hf := (commandLegal_init hk).mp hs
    rcases initNext_cases k with hn | ⟨k', hn⟩
    · exact commandLegal_of_idle hn
    · refine (commandLegal_init hn).mpr ?_
      rw [faulted]
      dsimp only
      split
      · exact (statusFault_setInitDone s.status).trans hf
      · exact hf
  · rcases renderNext_cases p j with hn | ⟨p', j', hn⟩
    · exact commandLegal_of_idle hn
    · exact (commandLegal_render hn).mpr ((commandLegal_render hpj).mp hs)

/-- Settles O53: a command starts legally, an acceptance keeps it so, and every other step leaves it or ends it. -/
theorem renderInProgressHasADefinedFrame : Obligations.RenderInProgressHasADefinedFrame := by
  intro s t hs h
  cases step_effect h with
  | waits => exact hs
  | reset => exact commandLegal_of_idle rfl
  | accept rest => exact commandLegal_acceptTransfer (s := { s with inputs := rest }) hs
  | host acc rest _ hidle ht => exact AccessEffect.commandLegal (s := { s with inputs := rest }) hidle ht

/-! ### INIT_DONE (R137) -/

theorem initDone_of_status_cases {s t : State}
    (h : t.status = s.status ∨ ∃ c : ErrCode, t.status = statusRaise s.status c.code) : initDone t = initDone s := by
  rcases h with e | ⟨c, e⟩ <;> rw [initDone, e]
  · rfl
  · exact statusInitDone_raise _ _

/-- Of the acceptances, the one of the 22nd init transfer sets INIT_DONE and the others leave it. -/
theorem initDone_acceptTransfer (s : State) :
    initDone (acceptTransfer s) = if s.seq = .init 21 then true else initDone s := by
  rcases acceptTransfer_cases s with ⟨hseq, e⟩ | ⟨k, bytes, hseq, -, e⟩ | ⟨p, j, bytes, hseq, -, e⟩ <;> rw [e, hseq]
  · rfl
  · rw [initDone]
    dsimp only
    by_cases hk : k.val = 21
    · rw [if_pos hk, if_pos (congrArg Seq.init (Fin.ext hk))]
      exact statusInitDone_setInitDone s.status
    · rw [if_neg hk, if_neg fun h => hk (congrArg Fin.val (Seq.init.inj h))]
      rfl
  · rfl

/-- What a step does to INIT_DONE, by the move it makes. -/
theorem step_initDone_cases {s t : State} (h : step s = .next t) :
    (¬ noReset s ∧ initDone t = false) ∨
    (∃ rest, s.inputs = .accept :: rest ∧ initDone t = if s.seq = .init 21 then true else initDone s) ∨
    initDone t = initDone s := by
  cases step_effect h with
  | waits => exact .inr (.inr rfl)
  | reset rest hin => exact .inl ⟨fun hnr => hnr (by rw [hin]; rfl), by rw [initDone, applyReset_status]; rfl⟩
  | accept rest hin => exact .inr (.inl ⟨rest, hin, initDone_acceptTransfer { s with inputs := rest }⟩)
  | host acc rest _ _ ht => exact .inr (.inr (initDone_of_status_cases ht.status_cases))

/-- Settles O42: only the acceptance of the last init transfer raises INIT_DONE, and only a reset lowers it. -/
theorem initDoneIsSetByTheLastInitTransferOnly : Obligations.InitDoneIsSetByTheLastInitTransferOnly := by
  refine fun s t h => ⟨fun hs ht => ?_, fun hseq ⟨rest, hin⟩ => ?_, fun hs hnr => ?_⟩
  · rcases step_initDone_cases h with ⟨-, e⟩ | ⟨rest, hin, e⟩ | e
    · rw [e] at ht; cases ht
    · by_cases hseq : s.seq = .init 21
      · exact ⟨hseq, rest, hin⟩
      · rw [e, if_neg hseq, hs] at ht; cases ht
    · rw [e, hs] at ht; cases ht
  · rw [step_accept hin] at h
    cases h
    exact (initDone_acceptTransfer { s with inputs := rest }).trans (if_pos hseq)
  · rcases step_initDone_cases h with ⟨hr, -⟩ | ⟨rest, -, e⟩ | e
    · exact absurd hnr hr
    · rw [e, hs, ite_self]
    · rw [e, hs]

/-! ### RENDER's checks (R142, R143) -/

section
variable {s : State} (hf : faulted s = false)
include hf

theorem exec_render_notInit (hi : initDone s = false) (len : BitVec 16) :
    exec (.render len) s = .next (raiseError .notInit (encode (.render len)) s) := by
  simp [exec, execRender, issue_ok hf, hi]

theorem exec_render_size (hi : initDone s = true) {len : BitVec 16} (hlen : len.toNat ≠ 1024) :
    exec (.render len) s = .next (raiseError .size (encode (.render len)) s) := by
  simp [exec, execRender, issue_ok hf, hi, hlen]

theorem exec_render_uninit (hi : initDone s = true) {len : BitVec 16} (hlen : len.toNat = 1024) {i : Nat}
    (hu : frameUndefined s = some i) : exec (.render len) s = .fault (.uninit i) := by
  simp [exec, execRender, issue_ok hf, hi, hlen, hu]

theorem exec_render_legal (hi : initDone s = true) {len : BitVec 16} (hlen : len.toNat = 1024) (hd : allDefined s) :
    exec (.render len) s = .next { s with seq := .render 0 0 } := by
  simp [exec, execRender, issue_ok hf, hi, hlen, (frameUndefined_eq_none s).mpr hd]

end

theorem statusRaise_notInit (st : Word) :
    statusRaise st ErrCode.notInit.code = (st &&& 0xFFFFFF0D#32) ||| 0x00000042#32 :=
  BitVec.or_assoc _ _ _

theorem statusRaise_size (st : Word) :
    statusRaise st ErrCode.size.code = (st &&& 0xFFFFFF0D#32) ||| 0x00000022#32 :=
  BitVec.or_assoc _ _ _

/-- The number of a RENDER word, put together from its fields (R82, R84). -/
theorem encode_render_eq_ofNat (len : BitVec 16) : encode (.render len) = BitVec.ofNat 32 (0x50000000 + len.toNat) := by
  obtain ⟨hop, hres⟩ := (rowRender_selects _).mp (row_selects_encode (.render len))
  have hop := (opField_toNat _).symm.trans (congrArg BitVec.toNat hop)
  have hres := (reservedGL_toNat _).symm.trans (congrArg BitVec.toNat hres)
  have hlen := lenField_toNat (encode (.render len))
  rw [lenField_encode_render] at hlen
  simp only [BitVec.reduceToNat] at hop hres
  refine BitVec.eq_of_toNat_eq ?_
  rw [BitVec.toNat_ofNat]
  omega

/-- The whole-frame check answers the lowest byte with an undefined bit. -/
theorem frameUndefined_of_lowest {s : State} {i : Nat} (hi : i < 1024) (hundef : defByte s i ≠ 0xFF#8)
    (hbelow : ∀ j, j < i → defByte s j = 0xFF#8) : frameUndefined s = some i := by
  have h := firstUndefined_of_lowest (s := s) (lo := 0) hi
  simp only [Nat.zero_add] at h
  rw [frameUndefined_eq]
  exact h hundef hbelow

/-- Settles O43: the three checks in their order, with the error words written out. -/
theorem renderChecksBeforeAnyTransfer : Obligations.RenderChecksBeforeAnyTransfer := by
  refine fun s len hf => ⟨fun hi => ?_, fun hi hlen => ?_, fun i hi hlen hlt hundef hbelow => ?_⟩
  · rw [exec_render_notInit hf hi, raiseError, statusRaise_notInit, encode_render_eq_ofNat]
  · rw [exec_render_size hf hi hlen, raiseError, statusRaise_size, encode_render_eq_ofNat]
  · exact exec_render_uninit hf hi hlen (frameUndefined_of_lowest hlt hundef hbelow)

/-! ### Runs of acceptances (R60) -/

/-- If an acceptance moves the `k`-th of a sequence of states to the next one for each `k` below `last`, then `n` acceptances
move the first state to the `n`-th. -/
theorem runsTo_accepts {progress : List Input → Nat → State} {last : Nat}
    (hstep : ∀ pending k, k < last → step (progress (.accept :: pending) k) = .next (progress pending (k + 1)))
    (rest : List Input) {n : Nat} (hn : n ≤ last) :
    runsTo n (progress (List.replicate n .accept ++ rest) 0) (progress rest n) := by
  suffices h : ∀ m k, k + m ≤ last → runsTo m (progress (List.replicate m .accept ++ rest) k) (progress rest (k + m)) by
    simpa using h n 0 (by omega)
  intro m
  induction m with
  | zero => exact fun k _ => rfl
  | succ m ih =>
    intro k hk
    refine ⟨_, hstep _ k (by omega), ?_⟩
    rw [show k + (m + 1) = k + 1 + m by omega]
    exact ih (k + 1) (by omega)

/-- The transfers completed so far, and one more. -/
theorem append_take_succ {l done : List Transfer} {k : Nat} {x : Transfer} (h : l[k]? = some x) :
    done ++ l.take k ++ [x] = done ++ l.take (k + 1) := by
  rw [List.take_add_one, h, List.append_assoc]
  rfl

/-! ### INIT, one transfer at a time (R134 to R138) -/

/-- Settles O38: the vector's entries are the table's. -/
theorem initStreamIsTheTableOfTheRule : Obligations.InitStreamIsTheTableOfTheRule := fun _ => rfl

theorem exec_init {s : State} (hf : faulted s = false) : exec .init s = .next { s with seq := .init 0 } :=
  (issue_ok hf _ : execInit s = _)

theorem initTransfers_length (ops : InitOps) : (initTransfers ops).length = 22 := by
  rw [initTransfers, List.length_map, Vector.length_toList]

theorem initTransfers_getElem? (ops : InitOps) (k : Fin 22) :
    (initTransfers ops)[k.val]? = some (cmdTransfer ((initSeq ops).get k)) := by
  simp [initTransfers, Vector.get_eq_getElem]

/-- Every init transfer is two bytes: the marker and the command byte (R135). -/
theorem initTransfers_byteCount (ops : InitOps) : ((initTransfers ops).map (fun x => x.bytes.length)).sum = 44 := by
  simp [initTransfers, cmdTransfer, Function.comp_def]

/-- `seq` after `k` init transfers (R136). -/
def initPosition (k : Nat) : Seq := if h : k < 22 then .init ⟨k, h⟩ else .idle

theorem initPosition_of_lt {k : Nat} (hk : k < 22) : initPosition k = .init ⟨k, hk⟩ := dif_pos hk

theorem initNext_eq (k : Fin 22) : initNext k = initPosition (k.val + 1) := rfl

/-- An INIT started in `s`, after `k` transfers, with the moves `pending` still to come. -/
def initProgress (s : State) (pending : List Input) (k : Nat) : State :=
  { s with
    seq := initPosition k
    status := if k < 22 then s.status else statusSetInitDone s.status
    inputs := pending
    trace := s.trace ++ (initTransfers Config.initOps).take k }

theorem initProgress_zero {s : State} {pending : List Input} (h : s.inputs = pending) :
    initProgress s pending 0 = { s with seq := .init 0 } := by
  rw [initProgress, ← h, List.take_zero, List.append_nil]
  rfl

theorem acceptTransfer_init {s : State} {k : Fin 22} (h : s.seq = .init k) : acceptTransfer s = sendInit k s := by
  rw [acceptTransfer, h]

/-- One acceptance is one transfer of INIT. -/
theorem step_initProgress (s : State) (pending : List Input) (k : Nat) (hk : k < 22) :
    step (initProgress s (.accept :: pending) k) = .next (initProgress s pending (k + 1)) := by
  have hseq : (initProgress s pending k).seq = .init ⟨k, hk⟩ := initPosition_of_lt hk
  have htrace := append_take_succ (done := s.trace) (initTransfers_getElem? Config.initOps ⟨k, hk⟩)
  have hstatus : (if k = 21 then statusSetInitDone s.status else s.status) =
      if k + 1 < 22 then s.status else statusSetInitDone s.status := by
    split
    · next h => exact (if_neg (by omega)).symm
    · next h => exact (if_pos (by omega)).symm
  refine (step_accept rfl).trans (congrArg _ ?_)
  change acceptTransfer (initProgress s pending k) = _
  rw [acceptTransfer_init hseq, sendInit_eq]
  simp only [initProgress, if_pos hk, htrace, hstatus, initNext_eq]

/-- INIT, accepted `n` times, has made its first `n` transfers. -/
theorem runsTo_init {s : State} {n : Nat} (hn : n ≤ 22) {rest : List Input}
    (hin : s.inputs = List.replicate n .accept ++ rest) :
    runsTo n { s with seq := .init 0 } (initProgress s rest n) := by
  rw [← initProgress_zero hin]
  exact runsTo_accepts (step_initProgress s) rest hn

/-- Settles O40: after the last of the 22 acceptances the whole stream is sent and INIT_DONE is set. -/
theorem initSendsTheWholeStream : Obligations.InitSendsTheWholeStream := by
  refine fun s rest hf => ⟨exec_init hf, fun hin => ⟨?_, initTransfers_length _, initTransfers_byteCount _⟩⟩
  have hrun := runsTo_init le_rfl hin
  rw [initProgress, List.take_of_length_le (initTransfers_length _).le] at hrun
  exact hrun

/-- Settles O41: after `k` acceptances nothing is left to move, and INIT waits at its transfer `k`. -/
theorem initHangsAtTheTransferNeverAccepted : Obligations.InitHangsAtTheTransferNeverAccepted := by
  refine fun s k m hk hf hin => ⟨exec_init hf, ?_⟩
  have hrun := runsTo_init (rest := []) hk.le (hin.trans (List.append_nil _).symm)
  rw [initProgress, initPosition_of_lt hk, if_pos hk] at hrun
  exact runsTo_add hrun (runsTo_self (step_waits Seq.noConfusion (.inl rfl)) m)

/-! ### The transfers of a RENDER (R144 to R147) -/

@[simp] theorem pageTransfers_length (s : State) (p : Nat) : (pageTransfers s p).length = 4 := rfl

theorem firstPages_length (s : State) (n : Nat) : ((List.range n).flatMap (pageTransfers s)).length = 4 * n := by
  simp [List.length_flatMap, Nat.mul_comm]

theorem renderTransfers_length (s : State) : (renderTransfers s).length = 32 := firstPages_length s 8

/-- The transfers of the pages below `p`, of page `p`, and of the pages above. -/
theorem renderTransfers_split (s : State) {p : Nat} (hp : p < 8) : ∃ above,
    renderTransfers s = (List.range p).flatMap (pageTransfers s) ++ (pageTransfers s p ++ above) := by
  refine ⟨(List.range' (p + 1) (7 - p)).flatMap (pageTransfers s), ?_⟩
  have hrange : List.range 8 = List.range p ++ p :: List.range' (p + 1) (7 - p) := by
    rw [List.range_eq_range', List.range_eq_range', ← List.range'_succ]
    have h := List.range'_append_1 (s := 0) (m := p) (n := 7 - p + 1)
    rw [Nat.zero_add, show p + (7 - p + 1) = 8 by omega] at h
    exact h.symm
  rw [renderTransfers, Geom.numPages, hrange, List.flatMap_append, List.flatMap_cons]

/-- The four transfers of page `p` stand at `4 * p`. -/
theorem renderTransfers_page (s : State) {p : Nat} (hp : p < 8) :
    ((renderTransfers s).drop (4 * p)).take 4 = pageTransfers s p := by
  obtain ⟨above, h⟩ := renderTransfers_split s hp
  rw [h, List.drop_left' (firstPages_length s p), List.take_left' (pageTransfers_length s p)]

/-- Transfer `k` of a RENDER is transfer `k % 4` of page `k / 4`. -/
theorem renderTransfers_getElem? (s : State) {k : Nat} (hk : k < 32) :
    (renderTransfers s)[k]? = (pageTransfers s (k / 4))[k % 4]? := by
  rw [← renderTransfers_page s (show k / 4 < 8 by omega), List.getElem?_take_of_lt (by omega), List.getElem?_drop,
    Nat.div_add_mod]

/-- A count over the transfers of a RENDER is eight times the count over one page, where all pages count alike. -/
theorem renderTransfers_sum (s : State) {f : Transfer → Nat} {c : Nat} (h : ∀ p, ((pageTransfers s p).map f).sum = c) :
    ((renderTransfers s).map f).sum = 8 * c := by
  rw [renderTransfers, List.map_flatMap, List.flatMap, List.sum_flatten, List.map_map]
  simp only [Function.comp_def, h, List.map_const', List.length_range, List.sum_replicate, smul_eq_mul]
  rfl

theorem dataTransfer_length (s : State) (p : Nat) : (dataTransfer (pageBytes s p)).bytes.length = 129 :=
  congrArg (· + 1) (pageBytes_length s p)

theorem pageBytes_getElem? (s : State) (p : Nat) {x : Nat} (hx : x < 128) :
    (pageBytes s p)[x]? = some (fbByte s (p * 128 + x)) := by
  simp [pageBytes, hx]

/-- Settles O45: each page counts 135 bytes, 128 of them data, and its data transfer is the last of its four. -/
theorem frameCarriesEachByteOnce : Obligations.FrameCarriesEachByteOnce := by
  refine fun s => ⟨renderTransfers_length s, renderTransfers_sum s (c := 135) fun p => ?_,
    renderTransfers_sum s (c := 128) fun p => ?_,
    fun i hi => ⟨dataTransfer (pageBytes s (i / 128)), ?_, dataTransfer_length s _, ?_⟩⟩
  · simp [pageTransfers, cmdTransfer, dataTransfer]
  · simp [pageTransfers, cmdTransfer, dataTransfer]
  · rw [renderTransfers_getElem? s (by omega), show (4 * (i / 128) + 3) / 4 = i / 128 by omega,
      show (4 * (i / 128) + 3) % 4 = 3 by omega]
    rfl
  · rw [dataTransfer, Nat.add_comm, List.getElem?_cons_succ, pageBytes_getElem? s _ (Nat.mod_lt i (by omega)),
      Nat.div_add_mod']

/-! ### RENDER, one transfer at a time (R141, R144, R148) -/

/-- The page command in the statement's form (R88). -/
theorem pageCmd_eq (p : Fin 8) : pageCmd p = 0xB0#8 + BitVec.ofNat 8 p.val := by
  revert p
  decide

/-- Transfer `j` of page `p` appends that transfer of the page's four and changes nothing else. -/
theorem sendPage_pageTransfers (p : Fin 8) (j : Fin 4) (s : State) :
    ∃ x, (pageTransfers s p.val)[j.val]? = some x ∧ sendPage p j s = { s with trace := s.trace ++ [x] } := by
  unfold sendPage
  split
  · exact ⟨_, rfl, by rw [← pageCmd_eq]; rfl⟩
  · exact ⟨_, rfl, rfl⟩
  · exact ⟨_, rfl, rfl⟩
  · exact ⟨_, rfl, rfl⟩

/-- `seq` after `k` transfers of a RENDER (R144, R145). -/
def renderPosition (k : Nat) : Seq :=
  if h : k < 32 then .render ⟨k / 4, by omega⟩ ⟨k % 4, by omega⟩ else .idle

/-- The four transfers of a page in order, then the next page. -/
theorem renderNext_eq {k : Nat} (hk : k < 32) :
    renderNext ⟨k / 4, by omega⟩ ⟨k % 4, by omega⟩ = renderPosition (k + 1) := by
  unfold renderNext renderPosition
  dsimp only
  by_cases hj : k % 4 + 1 < 4
  · rw [dif_pos hj, dif_pos (by omega), Seq.render.injEq, Fin.ext_iff, Fin.ext_iff]
    exact ⟨by dsimp only; omega, by dsimp only; omega⟩
  · rw [dif_neg hj]
    by_cases hp : k / 4 + 1 < 8
    · rw [dif_pos hp, dif_pos (by omega), Seq.render.injEq, Fin.ext_iff, Fin.ext_iff]
      exact ⟨by dsimp only; omega, by rw [Fin.val_zero]; dsimp only; omega⟩
    · rw [dif_neg hp, dif_neg (by omega)]

/-- A RENDER started in `s`, after `k` transfers, with the moves `pending` still to come. -/
def renderProgress (s : State) (pending : List Input) (k : Nat) : State :=
  { s with
    seq := renderPosition k
    inputs := pending
    trace := s.trace ++ (renderTransfers s).take k }

theorem renderProgress_zero {s : State} {pending : List Input} (h : s.inputs = pending) :
    renderProgress s pending 0 = { s with seq := .render 0 0 } := by
  rw [renderProgress, ← h, List.take_zero, List.append_nil]
  rfl

theorem acceptTransfer_render {s : State} {p : Fin 8} {j : Fin 4} (h : s.seq = .render p j) :
    acceptTransfer s = sendRender p j s := by
  rw [acceptTransfer, h]

/-- The transfers of a page depend on FB alone. -/
theorem pageTransfers_congr {s t : State} (h : t.fb = s.fb) (p : Nat) : pageTransfers t p = pageTransfers s p := by
  rw [pageTransfers, pageTransfers, pageBytes_congr h]

/-- One acceptance is one transfer of RENDER. -/
theorem step_renderProgress (s : State) (pending : List Input) (k : Nat) (hk : k < 32) :
    step (renderProgress s (.accept :: pending) k) = .next (renderProgress s pending (k + 1)) := by
  have hseq : (renderProgress s pending k).seq = .render ⟨k / 4, by omega⟩ ⟨k % 4, by omega⟩ := dif_pos hk
  obtain ⟨x, hx, hsend⟩ := sendPage_pageTransfers ⟨k / 4, by omega⟩ ⟨k % 4, by omega⟩ (renderProgress s pending k)
  rw [pageTransfers_congr (s := s) (t := renderProgress s pending k) rfl, ← renderTransfers_getElem? s hk] at hx
  refine (step_accept rfl).trans (congrArg _ ?_)
  change acceptTransfer (renderProgress s pending k) = _
  rw [acceptTransfer_render hseq, sendRender, hsend, renderNext_eq hk]
  simp only [renderProgress, append_take_succ hx]

/-- Settles O44: after the last of the 32 acceptances every page is sent. -/
theorem renderSendsTheWholeFrame : Obligations.RenderSendsTheWholeFrame := by
  refine fun s rest hf hi hd => ⟨exec_render_legal hf hi rfl hd, fun hin => ?_, renderTransfers_length s,
    fun p hp => renderTransfers_page s hp⟩
  have hrun := runsTo_accepts (step_renderProgress s) rest le_rfl
  rw [renderProgress_zero hin, renderProgress, List.take_of_length_le (renderTransfers_length s).le] at hrun
  exact hrun

/-! ### The controller's image (R150) -/

theorem Panel.transfer_cmdTransfer (q : Panel) (c : Byte) : q.transfer (cmdTransfer c) = Panel.command c q := rfl

theorem Panel.transfer_dataTransfer (q : Panel) (d : List Byte) : q.transfer (dataTransfer d) = Panel.data d q := rfl

theorem Panel.command_pageCmd (p : Fin 8) (q : Panel) : Panel.command (pageCmd p) q = { q with page := p.val } := by
  obtain ⟨-, hhi, hlo⟩ := addressingBytesAreThoseOfTheRule.1 p
  simp only [Panel.command, hhi, hlo, if_true]

/-- The two column commands set the column to 2 (R89). -/
theorem Panel.command_column (q : Panel) :
    Panel.command 0x10#8 (Panel.command 0x02#8 q) = { q with col := 2 } := by
  have hlo : Panel.command 0x02#8 q = { q with col := q.col / 16 * 16 + 2 } := rfl
  have hhi : ∀ r : Panel, Panel.command 0x10#8 r = { r with col := 0 * 16 + r.col % 16 } := fun _ => rfl
  rw [hlo, hhi]
  congr 1
  dsimp only
  omega

/-- The transfers of a page put its bytes into that page, from column 2 on. -/
theorem controllerImage_pageTransfers (s : State) (q : Panel) {p : Nat} (hp : p < 8) :
    controllerImage q (pageTransfers s p) = Panel.data (pageBytes s p) { q with page := p, col := 2 } := by
  rw [pageTransfers, ← pageCmd_eq ⟨p, hp⟩]
  simp only [controllerImage, List.foldl_cons, List.foldl_nil, Panel.transfer_cmdTransfer, Panel.transfer_dataTransfer,
    Panel.command_pageCmd, Panel.command_column]

theorem controllerImage_append (q : Panel) (l m : List Transfer) :
    controllerImage q (l ++ m) = controllerImage (controllerImage q l) m :=
  List.foldl_append

/-- The RAM after one more data byte: that byte at the panel's address, and the rest as it was. -/
theorem Panel.at_cons (q : Panel) (a b : Nat) (v : Byte) (page col c : Nat) :
    ({ q with col := c, ram := ((a, b), v) :: q.ram } : Panel).at page col =
      if page = a ∧ col = b then some v else q.at page col := by
  unfold Panel.at
  rw [List.find?_cons]
  by_cases h : page = a ∧ col = b
  · obtain ⟨rfl, rfl⟩ := h
    simp
  · rw [if_neg h, decide_eq_false (by rintro ⟨⟩; exact h ⟨rfl, rfl⟩)]

/-- Data bytes fill the panel's page from its column on and leave the rest of the RAM. -/
theorem Panel.at_data (d : List Byte) (q : Panel) (page col : Nat) : (Panel.data d q).at page col =
    if page = q.page ∧ q.col ≤ col ∧ col < q.col + d.length then d[col - q.col]? else q.at page col := by
  induction d generalizing q with
  | nil => rw [if_neg (by rw [List.length_nil]; omega)]; rfl
  | cons v d ih =>
    rw [Panel.data, ih, Panel.at_cons, List.length_cons]
    dsimp only
    by_cases hfirst : page = q.page ∧ col = q.col
    · obtain ⟨hpage, rfl⟩ := hfirst
      rw [if_neg (by omega), if_pos ⟨hpage, rfl⟩, if_pos (by omega), Nat.sub_self]
      rfl
    · rw [if_neg hfirst]
      by_cases hrest : page = q.page ∧ q.col + 1 ≤ col ∧ col < q.col + 1 + d.length
      · rw [if_pos hrest, if_pos (by omega), show col - q.col = col - (q.col + 1) + 1 by omega, List.getElem?_cons_succ]
      · rw [if_neg hrest, if_neg (by omega)]

/-- After the transfers of the pages below `n`, each of these pages holds its bytes of FB. -/
theorem controllerImage_firstPages (s : State) (q : Panel) {n : Nat} (hn : n ≤ 8) {p x : Nat} (hp : p < n) (hx : x < 128) :
    (controllerImage q ((List.range n).flatMap (pageTransfers s))).at p (x + 2) = some (fbByte s (p * 128 + x)) := by
  induction n with
  | zero => omega
  | succ n ih =>
    rw [List.range_succ, List.flatMap_append, List.flatMap_singleton, controllerImage_append,
      controllerImage_pageTransfers s _ (by omega), Panel.at_data, pageBytes_length]
    dsimp only
    by_cases hlast : p = n
    · subst hlast
      rw [if_pos (by omega), Nat.add_sub_cancel]
      exact pageBytes_getElem? s p hx
    · rw [if_neg (by omega)]
      exact ih (by omega) (by omega)

/-- Settles O48: a RENDER's transfers are those of its eight pages. -/
theorem controllerImageIsTheFramebuffer : Obligations.ControllerImageIsTheFramebuffer :=
  fun s q _ _ hp hx => controllerImage_firstPages s q le_rfl hp hx

end Sys2Proof.Machine
end

section
/-! The proofs about errors (60_exceptions.md): what `raise Error` records, what stops a step, that the first error is kept until
a reset and leaves everything else as it was, and which condition decides what a command word does. -/

namespace Sys2Proof.Machine

/-! ### `raise Error` (R172) -/

/-- Settles O10: the fields `raiseError` sets, and the ones it does not. -/
theorem raiseErrorRecordsCodeAndWord : Obligations.RaiseErrorRecordsCodeAndWord := fun c v s =>
  ⟨faulted_raiseError c v s, statusErrCode_raise s.status c.code, rfl, rfl, initDone_raiseError c v s, rfl, rfl, rfl, rfl, rfl,
    rfl, rfl⟩

/-! ### What stops a step (R55, R177) -/

theorem step_not_refused (s : State) (r : Refusal) : step s ≠ .refused r := by
  intro h
  unfold step at h
  split at h
  · cases h
  · cases h
  · cases h
  · split at h
    · exact hostAccess_not_refused _ _ r h
    · cases h

/-- Settles O9: only a Host access with the Block idle stops a step, for one of its two reasons. -/
theorem stepStopsOnlyForTheTwoModelFaults : Obligations.StepStopsOnlyForTheTwoModelFaults := by
  refine fun s => ⟨step_not_refused s, fun i h => ?_, fun a n h => ?_⟩
  · obtain ⟨acc, rest, -, hidle, hacc⟩ := step_fault h
    rcases hostAccess_fault hacc with ⟨j, e, hundef, hj⟩ | ⟨_, _, e, -, -⟩
    · cases e; exact ⟨hundef, hj, hidle⟩
    · cases e
  · obtain ⟨acc, rest, hin, hidle, hacc⟩ := step_fault h
    rcases hostAccess_fault hacc with ⟨_, e, -, -⟩ | ⟨a', n', e, hadm, hhead⟩
    · cases e
    · cases e
      refine ⟨hidle, fun htable => ?_, hadm, rest, ?_⟩
      · rw [(admitted_iff a n).mpr htable] at hadm; cases hadm
      · rcases hhead with rfl | ⟨v, rfl⟩
        · exact .inl hin
        · exact .inr ⟨v, hin⟩

/-! ### The fault state (R173, R180, R216) -/

/-- In the fault state every word is ignored, a command or not. -/
theorem execute_faulted {s : State} (hf : faulted s = true) (v : Word) : execute v s = .next s := by
  unfold execute
  split
  · exact issue_faulted hf _
  · exact exec_faulted hf _

theorem CommandEffect.eq_of_faulted {i : Instr} {s t : State} (hf : faulted s = true) (h : CommandEffect i s t) : t = s := by
  cases h with
  | ignored => rfl
  | rejected hs | pixel hs | glyph hs | cleared hs | initStarted hs | renderStarted hs => rw [hf] at hs; cases hs

/-- In the fault state no Host access touches STATUS or ERR_CMD. -/
theorem AccessEffect.errorRegisters_of_faulted {acc : Access} {s t : State} (hf : faulted s = true) (h : AccessEffect acc s t) :
    t.status = s.status ∧ t.errCmd = s.errCmd := by
  cases h with
  | quiet | glyphLo | glyphHi => exact ⟨rfl, rfl⟩
  | illegal hs => rw [hf] at hs; cases hs
  | command i h => rw [h.eq_of_faulted hf]; exact ⟨rfl, rfl⟩

/-- An acceptance neither raises an error nor clears one. -/
theorem acceptTransfer_error (s : State) :
    faulted (acceptTransfer s) = faulted s ∧ statusErrCode (acceptTransfer s).status = statusErrCode s.status ∧
    (acceptTransfer s).errCmd = s.errCmd := by
  refine ⟨?_, ?_, ?_⟩
  · rcases acceptTransfer_status_cases s with e | e <;> rw [faulted, e]
    · rfl
    · exact statusFault_setInitDone s.status
  · rcases acceptTransfer_status_cases s with e | e <;> rw [e]
    exact statusErrCode_setInitDone s.status
  · rcases acceptTransfer_cases s with ⟨-, e⟩ | ⟨k, bytes, -, -, e⟩ | ⟨p, j, bytes, -, -, e⟩ <;> rw [e] <;> rfl

theorem faulted_applyReset (s : State) : faulted (applyReset s) = false := by
  rw [faulted, applyReset_status]; rfl

theorem statusErrCode_applyReset (s : State) : statusErrCode (applyReset s).status = 0#4 := by
  rw [applyReset_status]; rfl

/-- A step other than a reset keeps the error of a state in the fault state. -/
theorem step_keeps_error {s t : State} (hf : faulted s = true) (h : step s = .next t) (hnr : noReset s) :
    faulted t = true ∧ statusErrCode t.status = statusErrCode s.status ∧ t.errCmd = s.errCmd := by
  rcases noReset_effect h hnr with rfl | ⟨rest, -, rfl⟩ | ⟨acc, rest, -, -, ht⟩
  · exact ⟨hf, rfl, rfl⟩
  · obtain ⟨hfault, hcode, hcmd⟩ := acceptTransfer_error { s with inputs := rest }
    exact ⟨hfault.trans hf, hcode, hcmd⟩
  · obtain ⟨hstatus, hcmd⟩ := AccessEffect.errorRegisters_of_faulted (s := { s with inputs := rest }) hf ht
    exact ⟨(congrArg statusFault hstatus).trans hf, congrArg statusErrCode hstatus, hcmd⟩

/-- Settles O11: a `CMD` write is ignored, the other moves keep the error, and a reset zeroes STATUS and ERR_CMD. -/
theorem errorsAreLatchedUntilReset : Obligations.ErrorsAreLatchedUntilReset := by
  refine fun s hf => ⟨fun v rest hin hidle => ?_, fun t h hnr => step_keeps_error hf h hnr, fun rest hin => ?_⟩
  · exact (step_cmd hin hidle).trans (execute_faulted (s := { s with inputs := rest }) hf v)
  · exact ⟨_, step_reset hin, faulted_applyReset _, statusErrCode_applyReset _, applyReset_errCmd _⟩

/-! ### Errors are precise (R174) -/

/-- A command that ends in the fault state, and did not begin there, was rejected and did nothing else. -/
theorem CommandEffect.rejected_of_faulted {i : Instr} {s t : State} (hs : faulted s = false) (ht : faulted t = true)
    (h : CommandEffect i s t) : ∃ c, t = raiseError c (encode i) s := by
  have hraised : t.status ≠ s.status := fun e => by rw [faulted, e] at ht; exact absurd (hs.symm.trans ht) Bool.false_ne_true
  cases h with
  | rejected _ c => exact ⟨c, rfl⟩
  | glyph => exact absurd (writeBytes_status _ _ _) hraised
  | ignored | pixel | cleared | initStarted | renderStarted => exact absurd rfl hraised

/-- The one way a word leads into the fault state is `raise Error` with that word. -/
theorem execute_raises {s t : State} {v : Word} (hs : faulted s = false) (h : execute v s = .next t) (ht : faulted t = true) :
    ∃ c, t = raiseError c v s := by
  cases hdec : decode v with
  | error e =>
    rw [execute_of_decode_error hdec hs] at h
    cases h
    exact ⟨.illegalCmd, rfl⟩
  | ok i =>
    rw [execute_of_decode hdec] at h
    obtain ⟨c, rfl⟩ := (exec_effect h).rejected_of_faulted hs ht
    exact ⟨c, by rw [encodeOfDecodeIsTheWord v i hdec]⟩

/-- With a command in progress no step raises an error. -/
theorem step_raises_nothing {s t : State} (hrun : s.seq ≠ .idle) (hs : faulted s = false) (h : step s = .next t) :
    faulted t = false := by
  cases step_effect h with
  | waits => exact hs
  | reset => exact faulted_applyReset _
  | accept rest =>
    obtain ⟨hfault, -, -⟩ := acceptTransfer_error { s with inputs := rest }
    exact hfault.trans hs
  | host _ _ _ hidle => exact absurd hidle hrun

/-- Settles O12: an error is `raise Error` with the word, and the moves of a command in progress raise none. -/
theorem errorsArePrecise : Obligations.ErrorsArePrecise := by
  refine ⟨fun s t v hs h ht => ?_, fun s t hrun hs h => step_raises_nothing hrun hs h⟩
  obtain ⟨c, rfl⟩ := execute_raises hs h ht
  exact ⟨rfl, rfl, rfl, rfl, rfl, initDone_raiseError c v s, rfl⟩

/-! ### The order of the conditions (R81, R175) -/

theorem pixelLegal_eq_false_iff (x y : BitVec 8) : pixelLegal x y = false ↔ 128 ≤ x.toNat ∨ 64 ≤ y.toNat := by
  rw [← Bool.not_eq_true, pixelLegal_iff]; omega

theorem originLegal_eq_false_iff (x y : BitVec 8) :
    originLegal x y = false ↔ y.toNat % 8 ≠ 0 ∨ 64 ≤ y.toNat ∨ 128 < x.toNat + 8 := by
  rw [← Bool.not_eq_true, originLegal_iff]; omega

/-- Settles O13: the fault state, then the decoder, then the checks of the command the word is the encoding of. -/
theorem firstConditionDecidesTheError : Obligations.FirstConditionDecidesTheError := by
  intro s v
  split
  · next hf => exact execute_faulted hf v
  next hf =>
  have hf : faulted s = false := Bool.eq_false_iff.mpr hf
  cases hdec : decode v with
  | error e => exact execute_of_decode_error hdec hf
  | ok i =>
    obtain rfl := encodeOfDecodeIsTheWord v i hdec
    rw [execute_of_decode hdec]
    cases i with
    | setPixel x y val =>
      dsimp only
      split
      · next hout => exact exec_setPixel_rejected val hf ((pixelLegal_eq_false_iff x y).mpr hout)
      · next hin =>
        have hl : pixelLegal x y = true := Bool.eq_true_of_not_eq_false (mt (pixelLegal_eq_false_iff x y).mp hin)
        exact ⟨_, exec_setPixel_legal val hf hl, hf⟩
    | drawGlyph x y =>
      dsimp only
      split
      · next hout => exact exec_drawGlyph_rejected hf ((originLegal_eq_false_iff x y).mpr hout)
      · next hin =>
        have hl : originLegal x y = true := Bool.eq_true_of_not_eq_false (mt (originLegal_eq_false_iff x y).mp hin)
        exact ⟨_, exec_drawGlyph_legal hf hl, (congrArg statusFault (writeBytes_status _ _ _)).trans hf⟩
    | clear => exact ⟨_, exec_clear hf, hf⟩
    | init => exact ⟨_, exec_init hf, hf⟩
    | render len =>
      dsimp only
      split
      · next hi => exact exec_render_notInit hf hi len
      next hi =>
      have hi : initDone s = true := Bool.eq_true_of_not_eq_false hi
      split
      · next hlen => exact exec_render_size hf hi hlen
      next hlen =>
      have hlen : len.toNat = 1024 := Decidable.not_not.mp hlen
      refine ⟨fun i hlt hundef hbelow => ?_, fun hd => ⟨_, exec_render_legal hf hi hlen hd, hf⟩⟩
      have hne : defByte s i ≠ 0xFF#8 := fun hdef => Bool.false_ne_true (hundef.symm.trans ((byteDefined_iff s i).mpr hdef))
      exact exec_render_uninit hf hi hlen
        (frameUndefined_of_lowest hlt hne fun j hj => (byteDefined_iff s j).mp (hbelow j hj))

end Sys2Proof.Machine
end

section
/-! The proofs about reset and hazards (70_reset_and_hazards.md): what a reset sets and what only a reset leaves, and what stays
as it is while a command is in progress. -/

namespace Sys2Proof.Machine

/-! ### Reset (R200) -/

/-- A reset marks every bit of the framebuffer as never written (R39). -/
theorem defByte_applyReset (s : State) (i : Nat) : defByte (applyReset s) i = 0#8 := rfl

/-- With neither a reset nor an acceptance to come next, the Host's access is next or no move is left. -/
theorem inputs_cases_of_head {s : State} (hnr : noReset s) (hna : s.inputs.head? ≠ some .accept) :
    s.inputs = [] ∨ ∃ acc rest, s.inputs = .host acc :: rest := by
  rw [noReset] at hnr
  cases hin : s.inputs with
  | nil => exact .inl rfl
  | cons input rest =>
    rw [hin] at hnr hna
    cases input with
    | host acc => exact .inr ⟨acc, rest, rfl⟩
    | accept => exact (hna rfl).elim
    | reset => exact (hnr rfl).elim

/-- Settles O15: a reset's fields are those of `applyReset`, the fault state is kept by every other move, and a transfer that
is not accepted waits. -/
theorem resetFromAnyStateKeepsOnlyTheTrace : Obligations.ResetFromAnyStateKeepsOnlyTheTrace := by
  refine fun s => ⟨fun rest hin => ⟨_, step_reset hin, fun i b => ?_, rfl, rfl, rfl, rfl, rfl, rfl, rfl⟩,
    fun t hf hnr h => (step_keeps_error hf h hnr).1,
    fun hrun hnr hna => step_waits hrun (inputs_cases_of_head hnr hna)⟩
  rw [defByte_applyReset, BitVec.getLsbD_zero]

/-! ### A command in progress (R148, R215) -/

/-- No acceptance completes a Host read. -/
theorem acceptTransfer_hostReads (s : State) : (acceptTransfer s).hostReads = s.hostReads := by
  rcases acceptTransfer_cases s with ⟨-, e⟩ | ⟨k, bytes, -, -, e⟩ | ⟨p, j, bytes, -, -, e⟩ <;> rw [e] <;> rfl

/-- The acceptances of a RENDER leave STATUS as it is. -/
theorem acceptTransfer_status_of_render {s : State} {p : Fin 8} {j : Fin 4} (h : s.seq = .render p j) :
    (acceptTransfer s).status = s.status := by
  obtain ⟨bytes, hsend, -⟩ := sendPage_eq p j s
  rw [acceptTransfer_render h, sendRender, hsend, xfer_status]

/-- With a command in progress, a step other than a reset waits or accepts a transfer. -/
theorem noReset_running_cases {s t : State} (hrun : s.seq ≠ .idle) (h : step s = .next t) (hnr : noReset s) :
    t = s ∨ ∃ rest, s.inputs = .accept :: rest ∧ t = acceptTransfer { s with inputs := rest } := by
  rcases noReset_effect h hnr with ht | ht | ⟨_, _, -, hidle, -⟩
  · exact .inl ht
  · exact .inr ht
  · exact absurd hidle hrun

/-- Settles O46: a step in a command waits or accepts a transfer, and neither touches these parts of the state. -/
theorem noFramebufferChangeWhileACommandRuns : Obligations.NoFramebufferChangeWhileACommandRuns := by
  intro s t hrun h hnr
  rcases noReset_running_cases hrun h hnr with rfl | ⟨rest, -, rfl⟩
  · exact ⟨rfl, rfl, rfl, rfl, rfl, rfl, fun _ _ _ => rfl⟩
  · obtain ⟨hfb, hdef, hlo, hhi⟩ := acceptTransfer_frame { s with inputs := rest }
    obtain ⟨-, -, hcmd⟩ := acceptTransfer_error { s with inputs := rest }
    exact ⟨hfb, hdef, hlo, hhi, hcmd, acceptTransfer_hostReads _,
      fun p j hseq => acceptTransfer_status_of_render (s := { s with inputs := rest }) hseq⟩

end Sys2Proof.Machine
end
